-- ==== Sys2Proof/Word.lean ====
section
/-! DEFINITION. The word types of the block (spec/00_scope.md R6, spec/30_encoding.md R74). Quantities whose width is a
parameter of R5 (`VALUE_W`, `BASE_W`) are naturals and integers, with their range in WellFormed.lean. -/

namespace Sys2Proof

/-- `u8`: a segment byte, a wire byte, an 8-bit operand (R6, R65). -/
abbrev Byte := BitVec 8

/-- A command word `cw[63:0]` (R74). -/
abbrev CmdWord := BitVec 64

end Sys2Proof
end

