-- ==== Sys2Proof/Config.lean ====
section
/-! DEFINITION. The parameters of spec/00_scope.md R5 ("A model takes each as a configuration field") and the free
values: constants with no body, so that nothing can be proved of which value they have. -/

namespace Sys2Proof

/-- The parameters of the block that are fixed for a machine (R5, R27). No step changes them (log 1).
`BRIGHT_RESET` is `Config.freeBright` below. -/
structure Config where
  /-- `MAX_DIGITS`: the digit ceiling (R5), above which a digit count is refused (R86). -/
  maxDigits : Nat
  /-- `VALUE_W`: the width in bits of the value operand, of `num` and of `REM` (R5, D6). -/
  valueW : Nat
  /-- `BASE_W`: the width in bits of the signed base operand (R5, D6). -/
  baseW : Nat
  /-- `GLYPH[0..15]`: the digit table (R66). -/
  glyph : Vector Byte 16
  /-- `MINUS_GLYPH` (R67). -/
  minusGlyph : Byte
  /-- `ACK_WAIT` (R98): false samples once, true repeats the sample until it is 0. -/
  ackWait : Bool
  /-- `FMT_LEN_RESET`, one of 1..4 (R5). -/
  fmtLenReset : BitVec 3
  /-- `FMT_LZ_RESET` (R5). -/
  fmtLzReset : Bool
  /-- `FMT_DOTS_RESET` (R5). -/
  fmtDotsReset : Byte
  /-- `BIT_DELAY` (R5, R158): "no rule depends on it", and none reads it here (log 11). -/
  bitDelay : Nat
  /-- Whether `format_number` loads `REM` also in its value-is-zero arm: R18 says `REM` is written at the start of
  every SHOW command, the pseudocode of R130 writes it in the other arm only. Both readings are kept (log 10). -/
  remLoadedOnZero : Bool
  deriving DecidableEq, Repr

/-- What R5 and R66 require of the parameters: the digit ceiling is 4 (R5: "fixed by DOC0"), bit 7 of every table entry is 0
and `FMT_LEN_RESET` is in 1..4; and the least widths that hold the operands of the spec's own expansions, base 16 in a
signed magnitude and a value of one bit (log 1). -/
def Config.wf (c : Config) : Bool :=
  decide (c.maxDigits = 4) && decide (1 ≤ c.valueW) && decide (5 ≤ c.baseW) &&
  c.glyph.toList.all (fun g => !g.getLsbD 7) && decide (1 ≤ c.fmtLenReset.toNat) && decide (c.fmtLenReset.toNat ≤ 4)

/-- The command word's layout "is bound to `VALUE_W` = 16 and `BASE_W` = 8; a model with other widths takes decoded commands,
not words" (R74). -/
def Config.takesWords (c : Config) : Bool := decide (c.valueW = 16) && decide (c.baseW = 8)

/-- The responder's answer to the n-th sample where `State.answers` lists none: any bit (R43, log 2). -/
opaque Config.freeAnswer : Nat → Bool

/-- `BRIGHT_RESET` at the n-th reset: any 4-bit value, a draw fixed at that reset (R170 treatment (a), log 3). -/
opaque Config.freeBright : Nat → BitVec 4

/-- `BIT_DELAY`: open (R5, log 11). -/
opaque Config.openBitDelay : Nat

/-- Which of the two readings of R18 and R130 the block follows: open (log 10). -/
opaque Config.openRemLoadedOnZero : Bool

/-- The parameters at the values of R5's "value" column. The glyph table and the minus glyph are the ones the spec gives
from general knowledge (R66, R67; PRESUMED, log 13). -/
def Config.spec : Config where
  maxDigits := 4
  valueW := 16
  baseW := 8
  glyph := #v[0x3F, 0x06, 0x5B, 0x4F, 0x66, 0x6D, 0x7D, 0x07, 0x7F, 0x6F, 0x77, 0x7C, 0x39, 0x5E, 0x79, 0x71]
  minusGlyph := 0x40
  ackWait := false
  fmtLenReset := 4
  fmtLzReset := false
  fmtDotsReset := 0x00
  bitDelay := Config.openBitDelay
  remLoadedOnZero := Config.openRemLoadedOnZero

end Sys2Proof
end

