-- ==== Sys2Proof/Syntax.lean ====
section
/-! DEFINITION. The command set: one constructor per row of spec/opcode_table.json (spec/30_encoding.md R75), with the
operands of R76 to R82. The operands whose width is a parameter (R5: `value` of `VALUE_W` bits unsigned, `num` of `VALUE_W`
and `base` of `BASE_W` bits signed) are naturals and integers; WellFormed.lean says when they fit. -/

namespace Sys2Proof

/-- The 13 commands of R75. Operands stand in the order of the assembler syntax (R85). -/
inductive Instr where
  /-- START (R91), format Z. -/
  | start
  /-- STOP (R92), format Z. -/
  | stop
  /-- WRBYTE data (R95), format B. -/
  | wrbyte (data : Byte)
  /-- ENCODE data (R110), format B. -/
  | encode (data : Byte)
  /-- SETSEG [seg0..seg3], len, pos (R115), format S. -/
  | setseg (seg0 seg1 seg2 seg3 : Byte) (len pos : Byte)
  /-- SETBRT level, on (R112), format C. -/
  | setbrt (level : Byte) (on : Bool)
  /-- SETFMT len, lz, dots (R113), format F. -/
  | setfmt (len : Byte) (lz : Bool) (dots : Byte)
  /-- SHOWBASE base, value, dots, lz, len, pos (R133), format N. -/
  | showbase (base : Int) (value : Nat) (dots : Byte) (lz : Bool) (len pos : Byte)
  /-- SHOWDEC num, dots, lz, len, pos (R134), format N. -/
  | showdec (num : Int) (dots : Byte) (lz : Bool) (len pos : Byte)
  /-- SHOWHEX value, dots, lz, len, pos (R135), format N. -/
  | showhex (value : Nat) (dots : Byte) (lz : Bool) (len pos : Byte)
  /-- SHOWBASE.D base, value, pos (R136), format M. -/
  | showbaseD (base : Int) (value : Nat) (pos : Byte)
  /-- SHOWDEC.D num, pos (R137), format M. -/
  | showdecD (num : Int) (pos : Byte)
  /-- SHOWHEX.D value, pos (R138), format M. -/
  | showhexD (value : Nat) (pos : Byte)
  deriving DecidableEq, Repr

/-- The pseudo-command `CLEAR` = `SETSEG [0x00, 0x00, 0x00, 0x00], 0` (R85): all four positions blank. -/
def Instr.clear : Instr := .setseg 0x00 0x00 0x00 0x00 4 0

end Sys2Proof
end

