-- ==== Sys2Proof/WellFormed.lean ====
section
/-! DEFINITION. When a command's operands are inside the admitted domain (spec/30_encoding.md R86), and when they fit the
operand widths (spec/00_scope.md R5, spec/30_encoding.md R74). A command outside the domain is a command, and the block
answers it with status REFUSED; operands that do not fit the widths are no command of the block. -/

namespace Sys2Proof

/-! ## The admitted domain -/

/-- R86(a): the digit count is in 1..`MAX_DIGITS`, which is 4. -/
def lenAdmitted (c : Config) (len : Byte) : Bool := decide (1 ≤ len.toNat) && decide (len.toNat ≤ c.maxDigits)

/-- R86(b): the base is not 0. -/
def baseAdmitted (base : Int) : Bool := decide (base ≠ 0)

/-- The operands of the command are inside the domain of R86. -/
def Instr.wf (c : Config) : Instr → Bool
  | .start => true
  | .stop => true
  | .wrbyte _ => true
  | .encode _ => true
  | .setseg _ _ _ _ len _ => lenAdmitted c len
  | .setbrt _ _ => true
  | .setfmt len _ _ => lenAdmitted c len
  | .showbase base _ _ _ len _ => baseAdmitted base && lenAdmitted c len
  | .showdec _ _ _ len _ => lenAdmitted c len
  | .showhex _ _ _ len _ => lenAdmitted c len
  | .showbaseD base _ _ => baseAdmitted base
  | .showdecD _ _ => true
  | .showhexD _ _ => true

/-- `Instr.wf` as a proposition that `decide` can run. -/
abbrev Instr.WellFormed (c : Config) (i : Instr) : Prop := i.wf c = true

/-! ## Operand widths -/

/-- An unsigned operand of n bits. -/
def fitsUnsigned (n v : Nat) : Bool := decide (v < 2 ^ n)

/-- A signed operand of n bits. -/
def fitsSigned (n : Nat) (v : Int) : Bool := decide (-(2 ^ (n - 1)) ≤ v) && decide (v < 2 ^ (n - 1))

/-- The operands fit `VALUE_W` = valueW and `BASE_W` = baseW. The other operands have the widths of their types. -/
def Instr.fitsWidths (valueW baseW : Nat) : Instr → Bool
  | .start => true
  | .stop => true
  | .wrbyte _ => true
  | .encode _ => true
  | .setseg _ _ _ _ _ _ => true
  | .setbrt _ _ => true
  | .setfmt _ _ _ => true
  | .showbase base value _ _ _ _ => fitsSigned baseW base && fitsUnsigned valueW value
  | .showdec num _ _ _ _ => fitsSigned valueW num
  | .showhex value _ _ _ _ => fitsUnsigned valueW value
  | .showbaseD base value _ => fitsSigned baseW base && fitsUnsigned valueW value
  | .showdecD num _ => fitsSigned valueW num
  | .showhexD value _ => fitsUnsigned valueW value

/-- The operands fit the block's widths. -/
def Instr.fits (c : Config) (i : Instr) : Bool := i.fitsWidths c.valueW c.baseW

/-- The command has a command word: its operands fit the widths the word's layout is bound to (R74). -/
abbrev Instr.HasWord (i : Instr) : Prop := i.fitsWidths 16 8 = true

end Sys2Proof
end

