-- ==== Sys2Proof/Decode.lean ====
section
/-! DEFINITION. The command-port encodings of spec/30_encoding.md part B (R74 to R82, R84) and
spec/opcode_table.json: the decoder, total on 64-bit words and rejecting by name, and the encoder. -/

namespace Sys2Proof

/-- Why a word is no command (R84). -/
inductive DecodeError where
  /-- `op` is 0xD, 0xE or 0xF. -/
  | reservedOpcode (op : Nat)
  /-- A reserved bit of the format is 1. -/
  | reservedBits (op : Nat)
  deriving DecidableEq, Repr

/-- `cw[lo+n-1:lo]` (R6). -/
def field (w : CmdWord) (lo n : Nat) : BitVec n := w.extractLsb' lo n

/-- `cw[i]` (R6). -/
def bitField (w : CmdWord) (i : Nat) : Bool := w.getLsbD i

/-- The reserved bits of each opcode's format, `cw[59:0]` less its fields (R76 to R82). -/
def reservedMask : Nat → CmdWord
  | 0x0 => 0x0FFFFFFFFFFFFFFF
  | 0x1 => 0x0FFFFFFFFFFFFFFF
  | 0x2 => 0x0FFFFFFFFFFFFF00
  | 0x3 => 0x0FFFFFFFFFFFFF00
  | 0x4 => 0x0FFF000000000000
  | 0x5 => 0x0FFFFFFFFFFFFE00
  | 0x6 => 0x0FFFFF00FE00FFFF
  | 0x7 => 0x0F000000FE000000
  | 0x8 => 0x0FFF0000FE000000
  | 0x9 => 0x0FFF0000FE000000
  | 0xA => 0x0F0000FFFFFF0000
  | 0xB => 0x0FFF00FFFFFF0000
  | 0xC => 0x0FFF00FFFFFF0000
  | _ => 0

/-- The command of an opcode, its operands read at the bits of its format (R75 to R82): `value` as u16, `num` as s16, `base`
as s8 (R81); none for 0xD, 0xE, 0xF. -/
def decodeFields (op : Nat) (w : CmdWord) : Option Instr :=
  match op with
  | 0x0 => some .start
  | 0x1 => some .stop
  | 0x2 => some (.wrbyte (field w 0 8))
  | 0x3 => some (.encode (field w 0 8))
  | 0x4 => some (.setseg (field w 0 8) (field w 8 8) (field w 16 8) (field w 24 8) (field w 32 8) (field w 40 8))
  | 0x5 => some (.setbrt (field w 0 8) (bitField w 8))
  | 0x6 => some (.setfmt (field w 32 8) (bitField w 24) (field w 16 8))
  | 0x7 =>
    some (.showbase (field w 48 8).toInt (field w 0 16).toNat (field w 16 8) (bitField w 24) (field w 32 8) (field w 40 8))
  | 0x8 => some (.showdec (field w 0 16).toInt (field w 16 8) (bitField w 24) (field w 32 8) (field w 40 8))
  | 0x9 => some (.showhex (field w 0 16).toNat (field w 16 8) (bitField w 24) (field w 32 8) (field w 40 8))
  | 0xA => some (.showbaseD (field w 48 8).toInt (field w 0 16).toNat (field w 40 8))
  | 0xB => some (.showdecD (field w 0 16).toInt (field w 40 8))
  | 0xC => some (.showhexD (field w 0 16).toNat (field w 40 8))
  | _ => none

/-- The decoder (R74, R84): the opcode is looked at first, then the reserved bits. -/
def decode (w : CmdWord) : Except DecodeError Instr :=
  let op := (field w 60 4).toNat
  match decodeFields op w with
  | none => .error (.reservedOpcode op)
  | some i => if w &&& reservedMask op = 0 then .ok i else .error (.reservedBits op)

/-- An operand placed at bit `lo` of a command word. -/
def place {n : Nat} (v : BitVec n) (lo : Nat) : CmdWord := v.setWidth 64 <<< lo

/-- A one-bit operand placed at bit `lo`. -/
def placeBit (b : Bool) (lo : Nat) : CmdWord := place (BitVec.ofBool b) lo

/-- The encoder: the `cw` formula of each command's rule (R91, R92, R95, R110, R112, R113, R115, R133 to R138), for a command
that has a word (`Instr.HasWord`). -/
def encode : Instr → CmdWord
  | .start => 0x0000000000000000
  | .stop => 0x1000000000000000
  | .wrbyte data => 0x2000000000000000 ||| place data 0
  | .encode data => 0x3000000000000000 ||| place data 0
  | .setseg seg0 seg1 seg2 seg3 len pos =>
    0x4000000000000000 ||| place pos 40 ||| place len 32 ||| place seg3 24 ||| place seg2 16 ||| place seg1 8 ||| place seg0 0
  | .setbrt level on => 0x5000000000000000 ||| placeBit on 8 ||| place level 0
  | .setfmt len lz dots => 0x6000000000000000 ||| place len 32 ||| placeBit lz 24 ||| place dots 16
  | .showbase base value dots lz len pos =>
    0x7000000000000000 ||| place (BitVec.ofInt 8 base) 48 ||| place pos 40 ||| place len 32 ||| placeBit lz 24 |||
      place dots 16 ||| place (BitVec.ofNat 16 value) 0
  | .showdec num dots lz len pos =>
    0x8000000000000000 ||| place pos 40 ||| place len 32 ||| placeBit lz 24 ||| place dots 16 |||
      place (BitVec.ofInt 16 num) 0
  | .showhex value dots lz len pos =>
    0x9000000000000000 ||| place pos 40 ||| place len 32 ||| placeBit lz 24 ||| place dots 16 |||
      place (BitVec.ofNat 16 value) 0
  | .showbaseD base value pos =>
    0xA000000000000000 ||| place (BitVec.ofInt 8 base) 48 ||| place pos 40 ||| place (BitVec.ofNat 16 value) 0
  | .showdecD num pos => 0xB000000000000000 ||| place pos 40 ||| place (BitVec.ofInt 16 num) 0
  | .showhexD value pos => 0xC000000000000000 ||| place pos 40 ||| place (BitVec.ofNat 16 value) 0

/-- The 64-bit command word of the host's table word: bit 0 is the least significant bit, the bits at and above `nbits`
are 0. All commands have one length, 64 bits (R74), so a longer word is none. -/
def tableWord (nbits w : Nat) : Option CmdWord :=
  if nbits ≤ 64 then some (BitVec.ofNat 64 (w % 2 ^ nbits)) else none

/-- What the decoder reads from an instruction whose bits are `w` (the host's check). -/
def decodeTableWord (nbits w : Nat) : Option Instr :=
  match tableWord nbits w with
  | none => none
  | some cw =>
    match decode cw with
    | .ok i => some i
    | .error _ => none

end Sys2Proof
end

