-- ==== Sys2Proof/Machine/State.lean ====
section
/-! DEFINITION. The state of the block (spec/10_state.md R10), its two ports (R31), the outside world's inputs as plain
data, and the state right after reset (spec/10_state.md R29, spec/70_reset_and_hazards.md R170). -/

namespace Sys2Proof.Machine

/-- The events of the trace `TR` (spec/00_scope.md R8, spec/10_state.md R26). -/
inductive Event where
  /-- `C0`: the clock pin is driven low. -/
  | c0
  /-- `C1`: the clock pin is released. -/
  | c1
  /-- `D0`: the data pin is driven low. -/
  | d0
  /-- `D1`: the data pin is released. -/
  | d1
  /-- `T`: one call of the delay primitive. -/
  | t
  /-- `S(a)`: one sample of the data line that read `a`. -/
  | s (a : Bool)
  deriving DecidableEq, Repr

/-- The two lines (spec/20_memory.md R40). -/
inductive Line where
  | clk
  | dio
  deriving DecidableEq, Repr

/-- The two things a `pin` primitive does (R8, R11). -/
inductive Drive where
  /-- Output mode: the pin drives its line low. -/
  | drive
  /-- Input mode: the pin does not drive. -/
  | release
  deriving DecidableEq, Repr

/-- The entries of a command's micro-step list (spec/10_state.md R25): the primitives of R8, and the two steps of the
acknowledgement slot that depend on the sampled bit. -/
inductive MicroOp where
  /-- `pin(line, DRIVE or RELEASE)`. -/
  | pin (l : Line) (d : Drive)
  /-- `delay()`. -/
  | delay
  /-- `a <- sample_dio()`, once, or until it reads 0 under `ACK_WAIT` (R94, R98). -/
  | sample
  /-- `if a = 0 then pin(DIO, DRIVE)` (R94). -/
  | holdIfAcked
  /-- `acked <- (a = 0); LAST_ACK <- acked; ALL_ACK <- ALL_ACK & acked` (R95); no primitive, so no micro-step of its own. -/
  | foldAck
  deriving DecidableEq, Repr

/-- The status of a response (spec/30_encoding.md R83). Status 3 is never produced and has no constructor. -/
inductive Status where
  /-- 0: the command was performed to its end. -/
  | ok
  /-- 1: the word is not a command (R84). -/
  | illegal
  /-- 2: the operands are outside the admitted domain (R86). -/
  | refused
  deriving DecidableEq, Repr

/-- One response record (R83). -/
structure Response where
  status : Status
  ack : Bool
  data : Byte
  deriving DecidableEq, Repr

/-- Why a step can stop with a fault: for no reason. "The block raises no synchronous exception" (spec/60_exceptions.md
R150); ILLEGAL and REFUSED are responses of a machine that goes on (R152). No constructor, so no fault is possible (safe). -/
inductive Fault where
  deriving DecidableEq, Repr

/-- What the host presents on the command port: a command word, or, on a block whose operand widths are not those the word's
layout is bound to, a decoded command ("a model with other widths takes decoded commands, not words", R74). -/
inductive Presented where
  | word (w : CmdWord)
  | decoded (i : Instr)
  deriving DecidableEq, Repr

/-- Why a step can be refused. No meaning of a command raises one. -/
inductive Refusal where
  /-- Raised by `step` for a word presented to a block with other operand widths: R74 gives it no layout there (safe). -/
  | noWordLayout
  /-- Raised by `step` for a decoded command whose operands do not fit the block's widths: it is none of the block's commands
  (R5, safe). -/
  | operandTooWide
  /-- Raised only by an arm of `exec` for a command that has no meaning yet; there is none in this model (safe). -/
  | notModelled (mnemonic : String)
  deriving DecidableEq, Repr

/-- The machine. One-bit registers are `Bool` (R6: "true = 1, false = 0"). -/
structure State where
  /-- `CLK_OE` (R11): true drives the clock line low. -/
  clkOe : Bool
  /-- `DIO_OE` (R11): true drives the data line low. -/
  dioOe : Bool
  /-- `BRIGHT` (R13): bit 3 on, bits 2..0 the level. -/
  bright : BitVec 4
  /-- `FMT_LEN` (R14). -/
  fmtLen : BitVec 3
  /-- `FMT_LZ` (R15). -/
  fmtLz : Bool
  /-- `FMT_DOTS` (R16). -/
  fmtDots : Byte
  /-- `DIG[0..3]` (R17). -/
  dig : Vector Byte 4
  /-- `REM` (R18), below 2^`VALUE_W`. -/
  rem : Nat
  /-- `BASE_MAG` (R18), of `BASE_W` bits, a magnitude up to 2^(`BASE_W`-1): 128 at the value of R5. -/
  baseMag : Nat
  /-- `NEG` (R19). -/
  neg : Bool
  /-- `MSK` (R20). -/
  msk : Byte
  /-- `LAST_ACK` (R22). -/
  lastAck : Bool
  /-- `ALL_ACK` (R23). -/
  allAck : Bool
  /-- `BUSY` (R24). -/
  busy : Bool
  /-- `UPC` (R25). -/
  upc : Nat
  /-- `TR` (R26), oldest first: ghost, read by nothing in the block. -/
  tr : List Event
  /-- The response port (R31): `none` is `rsp_valid` = 0 (log 5). -/
  rsp : Option Response
  /-- The rest of the micro-step list of the command in progress; empty when `BUSY` = 0 (R25, R54, log 8). -/
  todo : List MicroOp
  /-- The local `a` of `ack_slot()`: the last bit sampled (R94, log 8). -/
  smp : Bool
  /-- Input: what the host will present on the command port, oldest first (R31, log 4). -/
  cmdQueue : List Presented
  /-- Input: the reset wire (R31, log 9). -/
  resetIn : Bool
  /-- Input: the responder's next answers to `sample_dio()`, oldest first, true = line high (R43, log 2). -/
  answers : List Bool
  /-- How many oracle answers have been taken: indexes `Config.freeAnswer` once `answers` is empty (log 2). -/
  sampleNo : Nat
  /-- How many resets have drawn `BRIGHT_RESET`: indexes `Config.freeBright` (log 3). -/
  resetNo : Nat
  /-- The parameters (R5, R28), which no step changes (log 1). -/
  cfg : Config
  deriving DecidableEq, Repr

/-- The machine right after its first reset (R29, R170), at the parameters of R5. -/
def State.reset : State where
  clkOe := false
  dioOe := false
  bright := Config.freeBright 0
  fmtLen := Config.spec.fmtLenReset
  fmtLz := Config.spec.fmtLzReset
  fmtDots := Config.spec.fmtDotsReset
  dig := #v[0x00, 0x00, 0x00, 0x00]
  rem := 0
  baseMag := 0
  neg := false
  msk := 0
  lastAck := true
  allAck := true
  busy := false
  upc := 0
  tr := []
  rsp := none
  todo := []
  smp := false
  cmdQueue := []
  resetIn := false
  answers := []
  sampleNo := 0
  resetNo := 1
  cfg := Config.spec

end Sys2Proof.Machine
end

