-- ==== Sys2Proof/Machine/Operands.lean ====
section
/-! DEFINITION. Every operand form: digit counts and bases (spec/30_encoding.md R86), the sign channel of the base
(R70, spec/42_number_format.md R131), signed numbers (R134), the position and level masks (R63, R69), the three wire command
bytes (R62, R63, R64) and the digit table lookup (spec/41_encoder.md R110). -/

namespace Sys2Proof.Machine

/-- `abs(v)` of a signed operand, as a natural (R6: `abs(-2^(N-1)) = 2^(N-1)`, no overflow). -/
def absNat (v : Int) : Nat := v.natAbs

/-- `v < 0` of a signed operand (R6). -/
def isNeg (v : Int) : Bool := decide (v < 0)

/-- `len < 1 or len > 4`, the ceiling being `MAX_DIGITS` (R86(a), R5). -/
def lenRefused (c : Config) (len : Byte) : Bool := decide (len.toNat < 1 ∨ len.toNat > c.maxDigits)

/-- `base = 0` (R86(b), R131). -/
def baseRefused (base : Int) : Bool := decide (base = 0)

/-- `pos & 0x3` (R46). -/
def posMasked (pos : Byte) : Byte := pos &&& 0x3

/-- The data command byte (R62). -/
def dataCommand : Byte := 0x40

/-- The address command byte `0xC0 | (pos & 0x3)`: masked, then OR-ed (R63, spec/90_conflicts.md C2). -/
def addressCommand (pos : Byte) : Byte := 0xC0 ||| posMasked pos

/-- The display control byte `0x80 | BRIGHT`, `BRIGHT` zero-extended (R64, R114). -/
def controlCommand (bright : BitVec 4) : Byte := 0x80 ||| bright.setWidth 8

/-- `{on, level[2:0]}` (R69, R112). -/
def packBright (level : Byte) (on : Bool) : BitVec 4 :=
  (level &&& 0x7).setWidth 4 ||| ((BitVec.ofBool on).setWidth 4 <<< 3)

/-- `encode_digit(n)` = `GLYPH[n & 0xF]` (R110). -/
def encodeDigit (c : Config) (n : Nat) : Byte := c.glyph.getD (n &&& 0xF) 0

/-- The forwarded base of SHOWDEC: -10 for a negative number, else 10 (R134, R137). -/
def decimalBase (num : Int) : Int := if isNeg num then -10 else 10

/-- The forwarded value of SHOWDEC: `abs(num)`, which fits `VALUE_W` unsigned bits (R134, R137). -/
def decimalValue (num : Int) : Nat := absNat num

end Sys2Proof.Machine
end

