-- ==== Sys2Proof/Machine/Flags.lean ====
section
/-! DEFINITION. Every flag computation: the acknowledgement flags (spec/10_state.md R22, R23; spec/40_transport.md R95), the
negative flag (R19, spec/42_number_format.md R131) and the status code on the response port (spec/30_encoding.md R83). -/

namespace Sys2Proof.Machine

/-- `acked <- (a = 0)` (R95, R22): the sampled bit 0 means acknowledged. -/
def ackedOf (a : Bool) : Bool := !a

/-- `LAST_ACK <- acked; ALL_ACK <- ALL_ACK & acked`, from the bit sampled in this byte's slot (R95). -/
def foldAck (s : State) : State :=
  { s with lastAck := ackedOf s.smp, allAck := s.allAck && ackedOf s.smp }

/-- `NEG <- 1 if base < 0 else 0` (R131). -/
def negOfBase (base : Int) : Bool := isNeg base

/-- `rsp_status` (R83). -/
def statusCode : Status → BitVec 2
  | .ok => 0
  | .illegal => 1
  | .refused => 2

end Sys2Proof.Machine
end

