-- ==== Sys2Proof/Machine/Ops.lean ====
section
/-! DEFINITION. The shared operations: the primitives of spec/00_scope.md R8, the command's acceptance and response, the
sequencer, the Transport procedures (spec/40_transport.md), the overlay and the frame (spec/41_encoder.md), the number
formatter (spec/42_number_format.md), and reset (spec/70_reset_and_hazards.md). The block has no exception to take and no
return from one (spec/60_exceptions.md R150, R155, R156): the counterparts are `refuse` and `illegal`, which answer a
status and change nothing else (R84, R86, R152). -/

namespace Sys2Proof.Machine

/-! ## Ports and lines -/

/-- `cmd_ready` = not `BUSY` (spec/10_state.md R31). -/
def cmdReady (s : State) : Bool := !s.busy

/-- `rsp_valid` (R31). -/
def rspValid (s : State) : Bool := s.rsp.isSome

/-- `CLK_line` (spec/20_memory.md R40): the block alone drives it. -/
def clkLine (clkOe : Bool) : Bool := !clkOe

/-- `DIO_line` (R40): 1 if `DIO_OE` = 0 and the responder is not driving DIO low. -/
def dioLine (dioOe pulledLow : Bool) : Bool := !dioOe && !pulledLow

/-! ## Primitives (R8) -/

/-- One micro-step done: `UPC` advances by one and the event is appended to `TR` (R8, R25). -/
def emit (e : Event) (s : State) : State := { s with upc := s.upc + 1, tr := s.tr ++ [e] }

/-- The value written to the pin's direction register: 1 is output mode (R8, R11). -/
def Drive.oe : Drive → Bool
  | .drive => true
  | .release => false

/-- The event of a pin write: `C0`, `C1`, `D0`, `D1` (R8). -/
def pinEvent : Line → Drive → Event
  | .clk, .drive => .c0
  | .clk, .release => .c1
  | .dio, .drive => .d0
  | .dio, .release => .d1

/-- `pin(line, drive)`. -/
def pin (l : Line) (d : Drive) (s : State) : State :=
  match l with
  | .clk => emit (pinEvent .clk d) { s with clkOe := d.oe }
  | .dio => emit (pinEvent .dio d) { s with dioOe := d.oe }

/-- `delay()`. -/
def delay (s : State) : State := emit .t s

/-- The k-th next answer of the acknowledgement oracle: the listed answers first, then free values (log 2). -/
def answerAt (s : State) (k : Nat) : Bool := s.answers.getD k (Config.freeAnswer (s.sampleNo + k))

/-- The oracle after k answers were taken. -/
def takeAnswers (k : Nat) (s : State) : State :=
  { s with answers := s.answers.drop k, sampleNo := s.sampleNo + k }

/-- `a <- sample_dio()` (spec/20_memory.md R43): the level of the data line; with `DIO_OE` = 1 it is 0 and the oracle is
not asked (spec/00_scope.md section 6). -/
def sampleDio (s : State) : State :=
  if s.dioOe then emit (.s (dioLine true false)) { s with smp := dioLine true false }
  else
    let a := dioLine false (!answerAt s 0)
    emit (.s a) (takeAnswers 1 { s with smp := a })

/-- `if a = 0 then pin(DIO, DRIVE)` (R94), written field by field, so that only what depends on the sampled bit does
(Laws: `holdIfAcked_eq`). -/
def holdIfAcked (s : State) : State :=
  { s with
    dioOe := s.dioOe || !s.smp
    upc := if s.smp then s.upc else s.upc + 1
    tr := if s.smp then s.tr else s.tr ++ [.d0] }

/-- One entry of the micro-step list performed. -/
def doOp : MicroOp → State → State
  | .pin l d, s => pin l d s
  | .delay, s => delay s
  | .sample, s => sampleDio s
  | .holdIfAcked, s => holdIfAcked s
  | .foldAck, s => foldAck s

/-! ## Acceptance and response -/

/-- A command is accepted: `BUSY <- 1`, `UPC <- 0`, `ALL_ACK <- 1` (spec/10_state.md R23, R24, R25), no response yet. -/
def accept (s : State) : State :=
  { s with busy := true, upc := 0, allAck := true, rsp := none, todo := [] }

/-- `respond(status, ALL_ACK, data)` (R8, R83): the command ends. A primitive, so `UPC` advances (log 6). -/
def respond (st : Status) (data : Byte) (s : State) : State :=
  { s with busy := false, upc := s.upc + 1, rsp := some ⟨st, s.allAck, data⟩ }

/-- A command whose operands are outside the domain: `respond(REFUSED, 1, 0)` and nothing else (R86). -/
def refuse (s : State) : State := respond .refused 0 (accept s)

/-- A word that is no command: `respond(ILLEGAL, 1, 0)` and nothing else (R84). -/
def illegal (s : State) : State := respond .illegal 0 (accept s)

/-! ## The sequencer -/

/-- The wait loop of R98 goes round: `ACK_WAIT` is true and the sample just taken read 1. -/
def waits : MicroOp → State → Bool
  | .sample, s => s.cfg.ackWait && s.smp
  | _, _ => false

/-- The micro-step list of a command performed to its end, which is `respond(OK, ALL_ACK, 0)` (R25). Under `ACK_WAIT` it
stops before the next sample of the wait loop, with `BUSY` = 1 and the rest of the list in `todo` (R98, log 7). -/
def perform : List MicroOp → State → State
  | [], s => respond .ok 0 { s with todo := [] }
  | op :: ops, s =>
    let s' := doOp op s
    if waits op s' then { s' with todo := op :: ops } else perform ops s'

/-- A command that was waiting goes on: the wait loop takes its next sample (R98). -/
def resume (s : State) : State := perform s.todo s

/-- ONE micro-step of the sequencer (R25), for what can happen between two micro-steps; a command in progress is
`BUSY` = 1 with the rest of its list in `todo`. -/
def micro (s : State) : State :=
  if s.busy then
    match s.todo with
    | [] => respond .ok 0 s
    | op :: ops =>
      let s' := doOp op s
      if waits op s' then s' else { s' with todo := ops }
  else s

/-- k micro-steps. -/
def microRun : Nat → State → State
  | 0, s => s
  | k + 1, s => microRun k (micro s)

/-- A command in progress, before its first micro-step. -/
def launch (ops : List MicroOp) (s : State) : State := { s with todo := ops }

/-! ## Command intake (spec/20_memory.md R54) -/

/-- What the host presents, and the state after it is latched whole. -/
def fetch (s : State) : Option (Presented × State) :=
  match s.cmdQueue with
  | [] => none
  | w :: ws => some (w, { s with cmdQueue := ws })

/-- Nothing is presented: nothing happens, and `rsp_valid` goes back to 0 (R31, log 5). -/
def idle (s : State) : State := { s with rsp := none }

/-- The host places a word so that the next step takes it (log 4): it stands first on the command port of a block that is
not busy and not in reset. -/
def present (w : CmdWord) (s : State) : State :=
  { s with cmdQueue := .word w :: s.cmdQueue, busy := false, todo := [], resetIn := false }

/-! ## Transport procedures (spec/40_transport.md) -/

/-- `start()` (R91). -/
def startOps : List MicroOp := [.pin .dio .drive, .delay]

/-- `stop()` (R92). -/
def stopOps : List MicroOp :=
  [.pin .dio .drive, .delay, .pin .clk .release, .delay, .pin .dio .release, .delay]

/-- `bit_slot(v)` (R93): driving low transmits 0, releasing transmits 1. -/
def bitSlotOps (v : Bool) : List MicroOp :=
  [.pin .clk .drive, .delay, .pin .dio (if v then .release else .drive), .delay, .pin .clk .release, .delay]

/-- `ack_slot()` (R94). -/
def ackSlotOps : List MicroOp :=
  [.pin .clk .drive, .pin .dio .release, .delay, .pin .clk .release, .delay, .sample, .holdIfAcked, .delay,
   .pin .clk .drive, .delay]

/-- `write_byte(b)` (R95): bit 0 first, bit 7 last, then the acknowledgement slot and the flags. -/
def writeByteOps (b : Byte) : List MicroOp :=
  bitSlotOps (b.getLsbD 0) ++ bitSlotOps (b.getLsbD 1) ++ bitSlotOps (b.getLsbD 2) ++ bitSlotOps (b.getLsbD 3) ++
  bitSlotOps (b.getLsbD 4) ++ bitSlotOps (b.getLsbD 5) ++ bitSlotOps (b.getLsbD 6) ++ bitSlotOps (b.getLsbD 7) ++
  ackSlotOps ++ [.foldAck]

/-! ## The digit buffer and the overlay (spec/10_state.md R17, spec/41_encoder.md R111, R115) -/

/-- `DIG[i]` (R7). -/
def readDig (s : State) (i : Nat) : Byte := s.dig.getD i 0

/-- `DIG[i] <- v` (R7). -/
def writeDig (i : Nat) (v : Byte) (s : State) : State := { s with dig := s.dig.setIfInBounds i v }

/-- `DIG[0], ..., DIG[len-1]`. -/
def digits (s : State) (len : Nat) : List Byte := (List.range len).map (readDig s)

/-- `for k = 0 .. len-1: DIG[k] <- seg_k` (R115); entries at len and above are left alone. -/
def loadDigits (segs : Vector Byte 4) : Nat → State → State
  | 0, s => s
  | k + 1, s => writeDig k (segs.getD k 0) (loadDigits segs k s)

/-- One step of the overlay: `DIG[i] <- DIG[i] | (MSK & 0x80); MSK <- (MSK << 1) & 0xFF` (R111). -/
def overlayStep (i : Nat) (s : State) : State :=
  let s := writeDig i (readDig s i ||| (s.msk &&& 0x80)) s
  { s with msk := s.msk <<< 1 }

/-- `for i = 0, 1, ..., len-1 in this order` (R111). -/
def overlayLoop : Nat → State → State
  | 0, s => s
  | i + 1, s => overlayStep i (overlayLoop i s)

/-- `overlay_dots(len, mask)` (R111). -/
def overlayDots (len : Nat) (mask : Byte) (s : State) : State := overlayLoop len { s with msk := mask }

/-! ## The frame (spec/41_encoder.md R114) -/

/-- `set_segments(len, pos)` as a micro-step list, over the digit buffer and `BRIGHT` as they stand; nothing in the list
writes either. -/
def setSegmentsOps (len : Nat) (pos : Byte) (s : State) : List MicroOp :=
  startOps ++ writeByteOps dataCommand ++ stopOps ++
  (startOps ++ writeByteOps (addressCommand pos) ++ (digits s len).flatMap writeByteOps ++ stopOps) ++
  (startOps ++ writeByteOps (controlCommand s.bright) ++ stopOps)

/-- `set_segments(len, pos); respond(OK, ALL_ACK, 0)` (R114, R115, R133). -/
def sendFrame (len : Nat) (pos : Byte) (s : State) : State := perform (setSegmentsOps len pos s) s

/-- `frame_bytes(len, pos)` (R116): the byte sequence of a frame, one list per transaction. -/
def frameBytes (len : Nat) (pos : Byte) (s : State) : List (List Byte) :=
  [[dataCommand], addressCommand pos :: digits s len, [controlCommand s.bright]]

/-! ## The number formatter (spec/42_number_format.md) -/

/-- `for i = 0 .. n-1: DIG[i] <- 0x00` (R130, DOC0 step 2). -/
def blankDigits : Nat → State → State
  | 0, s => s
  | i + 1, s => writeDig i 0x00 (blankDigits i s)

/-- The body of the loop of R130 at position i; `REM` is tested before it is divided. -/
def formatDigit (bmag : Nat) (lz : Bool) (i : Nat) (s : State) : State :=
  let digit := s.rem % bmag
  let blank := decide (s.rem = 0) && !lz
  let s1 := writeDig i (if blank then 0x00 else encodeDigit s.cfg digit) s
  let s2 := if blank && s1.neg then { writeDig i s1.cfg.minusGlyph s1 with neg := false } else s1
  { s2 with rem := s2.rem / bmag }

/-- `for i = n-1, n-2, ..., 0 in this order` (R130). -/
def formatLoop (bmag : Nat) (lz : Bool) : Nat → State → State
  | 0, s => s
  | i + 1, s => formatLoop bmag lz i (formatDigit bmag lz i s)

/-- DOC0 step 2 (R130): value 0 with leading zeros off. Whether `REM` is loaded here is open (log 10). -/
def formatZero (value : Nat) (len : Nat) (s : State) : State :=
  let s := { s with rem := if s.cfg.remLoadedOnZero then value else s.rem }
  writeDig (len - 1) (encodeDigit s.cfg 0) (blankDigits (len - 1) s)

/-- `format_number(bmag, neg, value, lz, len)` (R130). -/
def formatNumber (bmag : Nat) (neg : Bool) (value : Nat) (lz : Bool) (len : Nat) (s : State) : State :=
  let s := { s with neg := neg }
  if value = 0 ∧ lz = false then formatZero value len s
  else formatLoop bmag lz len { s with rem := value }

/-- Steps 1 to 4 of `show_core` (R132): sign and magnitude, the formatter, the overlay. None is a primitive of R8. -/
def fillBuffer (base : Int) (value : Nat) (dots : Byte) (lz : Bool) (len : Nat) (s : State) : State :=
  let s := { s with neg := negOfBase base, baseMag := absNat base }
  overlayDots len dots (formatNumber s.baseMag s.neg value lz len s)

/-- `show_core(base, value, dots, lz, len, pos)` and the response after it (R132, R133, R136). -/
def showCore (base : Int) (value : Nat) (dots : Byte) (lz : Bool) (len : Nat) (pos : Byte) (s : State) : State :=
  sendFrame len pos (fillBuffer base value dots lz len s)

/-- `FMT_LEN <- len; FMT_LZ <- lz; FMT_DOTS <- dots` (R113, R133). -/
def writeFormat (len : Byte) (lz : Bool) (dots : Byte) (s : State) : State :=
  { s with fmtLen := len.setWidth 3, fmtLz := lz, fmtDots := dots }

/-- The explicit form (R133): refused, or the fields are set and the core called with them. -/
def showExplicit (base : Int) (value : Nat) (dots : Byte) (lz : Bool) (len pos : Byte) (s : State) : State :=
  if lenRefused s.cfg len || baseRefused base then refuse s
  else
    let s := writeFormat len lz dots (accept s)
    showCore base value s.fmtDots s.fmtLz s.fmtLen.toNat pos s

/-- The form that uses the stored defaults (R136). -/
def showStored (base : Int) (value : Nat) (pos : Byte) (s : State) : State :=
  if baseRefused base then refuse s
  else
    let s := accept s
    showCore base value s.fmtDots s.fmtLz s.fmtLen.toNat pos s

/-! ## Reset (spec/10_state.md R29, spec/70_reset_and_hazards.md R170, R171) -/

/-- The reset input acts: every register at its reset value, the command in progress gets no response. The outside world
(the words still to come, the oracle's answers) and the parameters are not the block's to reset (log 9). -/
def applyReset (s : State) : State :=
  { s with
    clkOe := false
    dioOe := false
    bright := Config.freeBright s.resetNo
    fmtLen := s.cfg.fmtLenReset
    fmtLz := s.cfg.fmtLzReset
    fmtDots := s.cfg.fmtDotsReset
    dig := #v[0x00, 0x00, 0x00, 0x00]
    rem := 0
    baseMag := 0
    neg := false
    msk := 0
    lastAck := true
    allAck := true
    busy := false
    upc := 0
    tr := []
    rsp := none
    todo := []
    smp := false
    resetIn := false
    resetNo := s.resetNo + 1 }

end Sys2Proof.Machine
end

