-- ==== Sys2Proof/Machine/Encoder.lean ====
section
/-! DEFINITION. The meanings of ENCODE, SETBRT, SETFMT and SETSEG (spec/41_encoder.md). -/

namespace Sys2Proof.Machine

/-- ENCODE: `respond(OK, 1, encode_digit(data))` (R110). -/
def execEncode (data : Byte) (s : State) : Host.Outcome State Fault Refusal :=
  .next (respond .ok (encodeDigit s.cfg data.toNat) (accept s))

/-- SETBRT: `BRIGHT <- {on, level[2:0]}; respond(OK, 1, 0)` (R112). -/
def execSetbrt (level : Byte) (on : Bool) (s : State) : Host.Outcome State Fault Refusal :=
  .next (respond .ok 0 { accept s with bright := packBright level on })

/-- SETFMT: refused, or the three fields are written together (R113). -/
def execSetfmt (len : Byte) (lz : Bool) (dots : Byte) (s : State) : Host.Outcome State Fault Refusal :=
  .next (if lenRefused s.cfg len then refuse s else respond .ok 0 (writeFormat len lz dots (accept s)))

/-- SETSEG: refused, or the raw bytes are loaded and a frame is sent (R115). -/
def execSetseg (seg0 seg1 seg2 seg3 len pos : Byte) (s : State) : Host.Outcome State Fault Refusal :=
  .next (if lenRefused s.cfg len then refuse s
    else sendFrame len.toNat pos (loadDigits #v[seg0, seg1, seg2, seg3] len.toNat (accept s)))

end Sys2Proof.Machine
end

