-- ==== Sys2Proof/Machine/Show.lean ====
section
/-! DEFINITION. The meanings of the six SHOW commands (spec/42_number_format.md R133 to R138). The decimal and hex forms are
expansions into the base forms: base 10 with the sign in the base (R134, R137), base 16 without sign (R135, R138). -/

namespace Sys2Proof.Machine

/-- SHOWBASE (R133). -/
def execShowbase (base : Int) (value : Nat) (dots : Byte) (lz : Bool) (len pos : Byte) (s : State) :
    Host.Outcome State Fault Refusal :=
  .next (showExplicit base value dots lz len pos s)

/-- SHOWDEC (R134). -/
def execShowdec (num : Int) (dots : Byte) (lz : Bool) (len pos : Byte) (s : State) :
    Host.Outcome State Fault Refusal :=
  .next (showExplicit (decimalBase num) (decimalValue num) dots lz len pos s)

/-- SHOWHEX (R135). -/
def execShowhex (value : Nat) (dots : Byte) (lz : Bool) (len pos : Byte) (s : State) :
    Host.Outcome State Fault Refusal :=
  .next (showExplicit 16 value dots lz len pos s)

/-- SHOWBASE.D (R136). -/
def execShowbaseD (base : Int) (value : Nat) (pos : Byte) (s : State) : Host.Outcome State Fault Refusal :=
  .next (showStored base value pos s)

/-- SHOWDEC.D (R137). -/
def execShowdecD (num : Int) (pos : Byte) (s : State) : Host.Outcome State Fault Refusal :=
  .next (showStored (decimalBase num) (decimalValue num) pos s)

/-- SHOWHEX.D (R138). -/
def execShowhexD (value : Nat) (pos : Byte) (s : State) : Host.Outcome State Fault Refusal :=
  .next (showStored 16 value pos s)

end Sys2Proof.Machine
end

