-- ==== Sys2Proof/Machine/Transport.lean ====
section
/-! DEFINITION. The meanings of START, STOP and WRBYTE (spec/40_transport.md). None is refused for the state of the pins
(R90). -/

namespace Sys2Proof.Machine

/-- START: `start(); respond(OK, 1, 0)` (R91). -/
def execStart (s : State) : Host.Outcome State Fault Refusal := .next (perform startOps (accept s))

/-- STOP: `stop(); respond(OK, 1, 0)` (R92). -/
def execStop (s : State) : Host.Outcome State Fault Refusal := .next (perform stopOps (accept s))

/-- WRBYTE: `acked <- write_byte(data); respond(OK, acked, 0)` (R95). `ALL_ACK` is 1 at acceptance, so at the end it is
`acked`. -/
def execWrbyte (data : Byte) (s : State) : Host.Outcome State Fault Refusal :=
  .next (perform (writeByteOps data) (accept s))

end Sys2Proof.Machine
end

