-- ==== Sys2Proof/Machine/Dispatch.lean ====
section
/-! DEFINITION. The dispatch: one arm per command of spec/30_encoding.md R75, each one call of its meaning. -/

namespace Sys2Proof.Machine

def exec (i : Instr) (s : State) : Host.Outcome State Fault Refusal :=
  match i with
  | .start => Sys2Proof.Machine.execStart s
  | .stop => Sys2Proof.Machine.execStop s
  | .wrbyte data => Sys2Proof.Machine.execWrbyte data s
  | .encode data => Sys2Proof.Machine.execEncode data s
  | .setseg seg0 seg1 seg2 seg3 len pos => Sys2Proof.Machine.execSetseg seg0 seg1 seg2 seg3 len pos s
  | .setbrt level on => Sys2Proof.Machine.execSetbrt level on s
  | .setfmt len lz dots => Sys2Proof.Machine.execSetfmt len lz dots s
  | .showbase base value dots lz len pos => Sys2Proof.Machine.execShowbase base value dots lz len pos s
  | .showdec num dots lz len pos => Sys2Proof.Machine.execShowdec num dots lz len pos s
  | .showhex value dots lz len pos => Sys2Proof.Machine.execShowhex value dots lz len pos s
  | .showbaseD base value pos => Sys2Proof.Machine.execShowbaseD base value pos s
  | .showdecD num pos => Sys2Proof.Machine.execShowdecD num pos s
  | .showhexD value pos => Sys2Proof.Machine.execShowhexD value pos s

end Sys2Proof.Machine
end

