-- ==== Sys2Proof/Machine/Step.lean ====
section
/-! DEFINITION. One step of the block: reset, or a waiting command goes on, or a command is taken from the command port and
performed to its response (spec/20_memory.md R54, spec/10_state.md R24, R25). -/

namespace Sys2Proof.Machine

/-- The word taken from the command port, performed: a command by `exec`, any other word by `illegal` (R84). -/
def runWord (w : CmdWord) (s : State) : Host.Outcome State Fault Refusal :=
  match decode w with
  | .ok i => exec i s
  | .error _ => .next (illegal s)

/-- What was presented, performed: a word on a block of the widths its layout is bound to, or a decoded command of the block's
own widths (R74, log 4). -/
def runPresented (p : Presented) (s : State) : Host.Outcome State Fault Refusal :=
  match p with
  | .word w => if s.cfg.takesWords then runWord w s else .refused .noWordLayout
  | .decoded i => if i.fits s.cfg then exec i s else .refused .operandTooWide

/-- The step. Reset acts at once (R171). While `BUSY` = 1 the command port accepts nothing (R24). A big step performs a
whole command, which R25 calls equivalent to performing its micro-steps. -/
def step (s : State) : Host.Outcome State Fault Refusal :=
  if s.resetIn then .next (applyReset s)
  else if s.busy then .next (resume s)
  else
    match fetch s with
    | none => .next (idle s)
    | some (p, s') => runPresented p s'

/-- The host's check: the table word placed where the next step takes its command (log 4). -/
def State.withFetchWord (s : State) (nbits w : Nat) : State :=
  match tableWord nbits w with
  | none => s
  | some cw => present cw s

end Sys2Proof.Machine
end

