-- ==== Sys2Proof/Machine/Asm.lean ====
section
/-! DEFINITION. The assembler syntax of spec/30_encoding.md R85: one command per line, the mnemonic of R75, operands
separated by commas, numbers decimal, 0x hex or 0b binary, a minus sign on `base` and `num` only, the segment operand of
SETSEG a bracketed list, and a semicolon starting a comment. What R85 does not say (spaces, ranges) is log 16. A line is a
list of characters. -/

namespace Sys2Proof.Machine

/-- An operand as written: a number with or without a minus sign, or a bracketed list. -/
inductive AsmOperand where
  | num (minus : Bool) (mag : Nat)
  | list (vs : List (Bool × Nat))
  deriving DecidableEq, Repr

/-! ## Characters to tokens -/

/-- The line without its comment. -/
def stripComment (cs : List Char) : List Char := cs.takeWhile (fun c => decide (c ≠ ';'))

/-- A space or a tab. -/
def isBlank (c : Char) : Bool := decide (c = ' ') || decide (c = '\t')

/-- The text without the blanks at its two ends. -/
def trimBlanks (cs : List Char) : List Char :=
  ((cs.dropWhile isBlank).reverse.dropWhile isBlank).reverse

/-- The value of a digit in any of the three bases. -/
def digitValue (c : Char) : Option Nat :=
  if '0' ≤ c ∧ c ≤ '9' then some (c.toNat - '0'.toNat)
  else if 'a' ≤ c ∧ c ≤ 'f' then some (c.toNat - 'a'.toNat + 10)
  else if 'A' ≤ c ∧ c ≤ 'F' then some (c.toNat - 'A'.toNat + 10)
  else none

/-- Digits of one base, most significant first, after the value read so far. -/
def digitsValue (base acc : Nat) : List Char → Option Nat
  | [] => some acc
  | c :: cs =>
    match digitValue c with
    | some d => if d < base then digitsValue base (acc * base + d) cs else none
    | none => none

/-- A number without sign: decimal, `0x` hex or `0b` binary, at least one digit. -/
def parseMagnitude : List Char → Option Nat
  | '0' :: 'x' :: c :: cs => digitsValue 16 0 (c :: cs)
  | '0' :: 'b' :: c :: cs => digitsValue 2 0 (c :: cs)
  | c :: cs => digitsValue 10 0 (c :: cs)
  | [] => none

/-- A number with its sign, blanks around it allowed. -/
def parseNumber (cs : List Char) : Option (Bool × Nat) :=
  match trimBlanks cs with
  | '-' :: cs' => (parseMagnitude cs').map (fun m => (true, m))
  | cs' => (parseMagnitude cs').map (fun m => (false, m))

/-- Text split at the commas that stand outside brackets. -/
def splitCommas (inside : Bool) (cur : List Char) : List Char → List (List Char)
  | [] => [cur]
  | ',' :: cs => if inside then splitCommas inside (cur ++ [',']) cs else cur :: splitCommas inside [] cs
  | '[' :: cs => splitCommas true (cur ++ ['[']) cs
  | ']' :: cs => splitCommas false (cur ++ [']']) cs
  | c :: cs => splitCommas inside (cur ++ [c]) cs

/-- Every entry has a value, or there is none. -/
def allSome {α : Type} : List (Option α) → Option (List α)
  | [] => some []
  | none :: _ => none
  | some a :: rest => (allSome rest).map (fun as => a :: as)

/-- The inside of a bracketed list. -/
def parseList (body : List Char) : Option AsmOperand :=
  match trimBlanks body with
  | [] => some (.list [])
  | cs => (allSome ((splitCommas false [] cs).map parseNumber)).map AsmOperand.list

/-- One operand, blanks around it allowed. -/
def parseOperand (cs : List Char) : Option AsmOperand :=
  match trimBlanks cs with
  | '[' :: cs' =>
    match cs'.reverse with
    | ']' :: body => parseList body.reverse
    | _ => none
  | cs' => (parseNumber cs').map (fun p => AsmOperand.num p.1 p.2)

/-- The operands of a line. -/
def parseOperands (cs : List Char) : Option (List AsmOperand) :=
  match trimBlanks cs with
  | [] => some []
  | cs' => allSome ((splitCommas false [] cs').map parseOperand)

/-! ## Tokens to a command -/

/-- An unsigned operand of n bits, as a number; no minus sign. -/
def asNat (n : Nat) : AsmOperand → Option Nat
  | .num false m => if fitsUnsigned n m then some m else none
  | _ => none

/-- An unsigned operand of n bits; no minus sign. -/
def asUnsigned (n : Nat) : AsmOperand → Option (BitVec n)
  | .num false m => if m < 2 ^ n then some (BitVec.ofNat n m) else none
  | _ => none

/-- A signed operand of n bits (`base`, `num`). -/
def asSigned (n : Nat) : AsmOperand → Option Int
  | .num minus m =>
    let v : Int := if minus then -(m : Int) else m
    if fitsSigned n v then some v else none
  | .list _ => none

/-- A one-bit operand (`lz`, `on`). -/
def asBit : AsmOperand → Option Bool
  | .num false 0 => some false
  | .num false 1 => some true
  | _ => none

/-- The bracketed list of SETSEG: at most four bytes. -/
def asSegments : AsmOperand → Option (List Byte)
  | .list vs => if vs.length ≤ 4 then allSome (vs.map (fun p => asUnsigned 8 (.num p.1 p.2))) else none
  | _ => none

/-- SETSEG from its list: "the assembler fills the remaining seg_k with 0", `len` is the list length. -/
def setsegOfList (segs : List Byte) (pos : Byte) : Instr :=
  .setseg (segs.getD 0 0) (segs.getD 1 0) (segs.getD 2 0) (segs.getD 3 0) (BitVec.ofNat 8 segs.length) pos

/-- The operand order of R85. -/
def assembleTokens (mnemonic : List Char) (ops : List AsmOperand) : Option Instr :=
  match mnemonic, ops with
  | ['S', 'T', 'A', 'R', 'T'], [] => some .start
  | ['S', 'T', 'O', 'P'], [] => some .stop
  | ['W', 'R', 'B', 'Y', 'T', 'E'], [a] => do some (.wrbyte (← asUnsigned 8 a))
  | ['E', 'N', 'C', 'O', 'D', 'E'], [a] => do some (.encode (← asUnsigned 8 a))
  | ['S', 'E', 'T', 'S', 'E', 'G'], [segs, pos] => do some (setsegOfList (← asSegments segs) (← asUnsigned 8 pos))
  | ['S', 'E', 'T', 'B', 'R', 'T'], [level, on] => do some (.setbrt (← asUnsigned 8 level) (← asBit on))
  | ['S', 'E', 'T', 'F', 'M', 'T'], [len, lz, dots] => do
    some (.setfmt (← asUnsigned 8 len) (← asBit lz) (← asUnsigned 8 dots))
  | ['S', 'H', 'O', 'W', 'B', 'A', 'S', 'E'], [base, value, dots, lz, len, pos] => do
    some (.showbase (← asSigned 8 base) (← asNat 16 value) (← asUnsigned 8 dots) (← asBit lz) (← asUnsigned 8 len)
      (← asUnsigned 8 pos))
  | ['S', 'H', 'O', 'W', 'D', 'E', 'C'], [num, dots, lz, len, pos] => do
    some (.showdec (← asSigned 16 num) (← asUnsigned 8 dots) (← asBit lz) (← asUnsigned 8 len) (← asUnsigned 8 pos))
  | ['S', 'H', 'O', 'W', 'H', 'E', 'X'], [value, dots, lz, len, pos] => do
    some (.showhex (← asNat 16 value) (← asUnsigned 8 dots) (← asBit lz) (← asUnsigned 8 len) (← asUnsigned 8 pos))
  | ['S', 'H', 'O', 'W', 'B', 'A', 'S', 'E', '.', 'D'], [base, value, pos] => do
    some (.showbaseD (← asSigned 8 base) (← asNat 16 value) (← asUnsigned 8 pos))
  | ['S', 'H', 'O', 'W', 'D', 'E', 'C', '.', 'D'], [num, pos] => do
    some (.showdecD (← asSigned 16 num) (← asUnsigned 8 pos))
  | ['S', 'H', 'O', 'W', 'H', 'E', 'X', '.', 'D'], [value, pos] => do
    some (.showhexD (← asNat 16 value) (← asUnsigned 8 pos))
  | ['C', 'L', 'E', 'A', 'R'], [] => some Instr.clear
  | _, _ => none

/-- One line of assembler text to its command. -/
def assembleLine (line : List Char) : Option Instr :=
  let body := (stripComment line).dropWhile isBlank
  let mnemonic := body.takeWhile (fun c => !isBlank c)
  match parseOperands (body.drop mnemonic.length) with
  | none => none
  | some ops => assembleTokens mnemonic ops

end Sys2Proof.Machine
end

