-- ==== Sys2Proof/Machine/Trace.lean ====
section
/-! DEFINITION. The event lists the spec prints beside its procedures ("Events:" of spec/40_transport.md R91 to R95, the
frame of spec/30_encoding.md R71 and spec/41_encoder.md R116), and what a command that ends leaves behind, as closed forms.
No meaning calls this file: statements compare the machine with it. `ACK_WAIT` is false, but for `waitedByteEvents`. -/

namespace Sys2Proof.Machine

/-! ## Event lists -/

/-- `D0 T` (R91). -/
def startEvents : List Event := [.d0, .t]

/-- `D0 T C1 T D1 T` (R92). -/
def stopEvents : List Event := [.d0, .t, .c1, .t, .d1, .t]

/-- `C0 T D1 T C1 T` for v = 1, `C0 T D0 T C1 T` for v = 0 (R93). -/
def bitSlotEvents (v : Bool) : List Event :=
  if v then [.c0, .t, .d1, .t, .c1, .t] else [.c0, .t, .d0, .t, .c1, .t]

/-- `C0 D1 T C1 T S(0) D0 T C0 T` when acknowledged, `C0 D1 T C1 T S(1) T C0 T` when not (R94). -/
def ackSlotEvents (a : Bool) : List Event :=
  if a then [.c0, .d1, .t, .c1, .t, .s true, .t, .c0, .t]
  else [.c0, .d1, .t, .c1, .t, .s false, .d0, .t, .c0, .t]

/-- The eight bit slots of a byte, least-significant bit first (R60, R95). -/
def dataSlotEvents (b : Byte) : List Event := (List.range 8).flatMap (fun i => bitSlotEvents (b.getLsbD i))

/-- A byte and its acknowledgement slot, the sample reading `a` (R95). -/
def byteEvents (b : Byte) (a : Bool) : List Event := dataSlotEvents b ++ ackSlotEvents a

/-- A byte under `ACK_WAIT` = true, the responder answering n ones and then a zero (R98): "no delay between samples". -/
def waitedByteEvents (b : Byte) (n : Nat) : List Event :=
  dataSlotEvents b ++ [.c0, .d1, .t, .c1, .t] ++ List.replicate n (Event.s true) ++ [.s false, .d0, .t, .c0, .t]

/-- Bytes one after the other, with nothing between them (R61), each with its sample. -/
def bytesEvents : List Byte → List Bool → List Event
  | b :: bs, a :: as => byteEvents b a ++ bytesEvents bs as
  | _, _ => []

/-- One transaction (R61). -/
def transactionEvents (bs : List Byte) (as : List Bool) : List Event :=
  startEvents ++ bytesEvents bs as ++ stopEvents

/-- Transactions one after the other, the samples dealt out in order (R116). -/
def transactionsEvents : List (List Byte) → List Bool → List Event
  | [], _ => []
  | bs :: rest, as => transactionEvents bs (as.take bs.length) ++ transactionsEvents rest (as.drop bs.length)

/-! ## What a command leaves -/

/-- The next n answers of the oracle. -/
def nextAnswers (s : State) (n : Nat) : List Bool := (List.range n).map (answerAt s)

/-- Every one of the next n samples reads 0. -/
def allAcked (s : State) (n : Nat) : Bool := (nextAnswers s n).all (fun a => !a)

/-- What `write_byte(b)` leaves (R95, R96): the clock pin driven, the data pin driven exactly when acknowledged, both flags
folded, the events appended, one answer taken. -/
def byteEffect (b : Byte) (s : State) : State :=
  let a := answerAt s 0
  { s with
    clkOe := true, dioOe := !a, lastAck := !a, allAck := s.allAck && !a, smp := a,
    upc := s.upc + (byteEvents b a).length, tr := s.tr ++ byteEvents b a,
    answers := s.answers.drop 1, sampleNo := s.sampleNo + 1 }

/-- What a frame with its response leaves, from a state whose digit buffer and `BRIGHT` stand (R114): pins released, the
flags folded over all 3 + len bytes, the events of the three transactions appended, 3 + len answers taken. -/
def frameEffect (len : Nat) (pos : Byte) (s : State) : State :=
  let as := nextAnswers s (3 + len)
  let es := transactionsEvents (frameBytes len pos s) as
  let acked := s.allAck && as.all (fun a => !a)
  { s with
    clkOe := false, dioOe := false, lastAck := !answerAt s (2 + len), allAck := acked, smp := answerAt s (2 + len),
    busy := false, upc := s.upc + es.length + 1, tr := s.tr ++ es, rsp := some ⟨.ok, acked, 0⟩, todo := [],
    answers := s.answers.drop (3 + len), sampleNo := s.sampleNo + (3 + len) }

/-- Digit-buffer entries below len replaced, the others as they were (R17). -/
def replaceDigits (len : Nat) (f : Nat → Byte) (d : Vector Byte 4) : Vector Byte 4 :=
  Vector.ofFn (fun k : Fin 4 => if k.val < len then f k.val else d.getD k.val 0)

/-- The byte `format_number` leaves at position i, in closed form (R130, R139, R140): with j the place of the position
counted from the right and r = value / bmag^j what remains there, a blank (or the one minus glyph, immediately left of the
most significant digit) when r = 0 and leading zeros are off, else the glyph of r mod bmag. -/
def formattedByte (c : Config) (bmag : Nat) (neg : Bool) (value : Nat) (lz : Bool) (len i : Nat) : Byte :=
  let j := len - 1 - i
  let r := value / bmag ^ j
  if lz = false ∧ r = 0 then
    if value = 0 then (if j = 0 then encodeDigit c 0 else 0x00)
    else if neg = true ∧ value / bmag ^ (j - 1) ≠ 0 then c.minusGlyph else 0x00
  else encodeDigit c (r % bmag)

/-- `NEG` after the formatter (R19, R140): cleared exactly when the minus glyph found a position. -/
def negAfter (bmag : Nat) (neg : Bool) (value : Nat) (lz : Bool) (len : Nat) : Bool :=
  neg && (lz || decide (value = 0) || decide (value / bmag ^ (len - 1) ≠ 0))

/-- `REM` after the formatter (R130; log 10 for a value of 0 with leading zeros off). -/
def remAfter (c : Config) (bmag : Nat) (value : Nat) (lz : Bool) (len : Nat) (old : Nat) : Nat :=
  if value = 0 ∧ lz = false then (if c.remLoadedOnZero then 0 else old)
  else value / bmag ^ len

/-- The dot/colon bit of position i (R68): bit 7 - i of the mask, in bit 7. -/
def dotBit (mask : Byte) (i : Nat) : Byte := if mask.getLsbD (7 - i) then 0x80 else 0x00

/-- What steps 1 to 4 of `show_core` leave (R132): sign, magnitude, working registers and the digit buffer. -/
def bufferEffect (base : Int) (value : Nat) (dots : Byte) (lz : Bool) (len : Nat) (s : State) : State :=
  let m := absNat base
  { s with
    neg := negAfter m (isNeg base) value lz len, baseMag := m,
    rem := remAfter s.cfg m value lz len s.rem, msk := dots <<< len,
    dig := replaceDigits len (fun i => formattedByte s.cfg m (isNeg base) value lz len i ||| dotBit dots i) s.dig }

/-- What a SHOW command that is not refused leaves, its format fields already in place (R132, R133, R136). -/
def showEffect (base : Int) (value : Nat) (dots : Byte) (lz : Bool) (len : Nat) (pos : Byte) (s : State) : State :=
  frameEffect len pos (bufferEffect base value dots lz len s)

/-- What a refused or illegal word leaves (R84, R86): `BUSY`, `UPC`, `ALL_ACK` and the response, nothing else. -/
def rejectEffect (st : Status) (s : State) : State :=
  { s with busy := false, upc := 1, allAck := true, rsp := some ⟨st, true, 0⟩, todo := [] }

end Sys2Proof.Machine
end

