-- ==== Sys2Proof/Machine/Wire.lean ====
section
/-! DEFINITION. What the two lines carry (spec/20_memory.md R40 to R44, spec/10_state.md R26, spec/40_transport.md R97),
computed from the trace: the waveform, the data levels at the clock's rising edges, and a receiver that recognises the wire
conditions of R44. The block reads none of this. -/

namespace Sys2Proof.Machine

/-- The pins after one event, (`CLK_OE`, `DIO_OE`). -/
def pinsAfter (p : Bool × Bool) : Event → Bool × Bool
  | .c0 => (true, p.2)
  | .c1 => (false, p.2)
  | .d0 => (p.1, true)
  | .d1 => (p.1, false)
  | .t => p
  | .s _ => p

/-- The waveform (R26): the pairs (`CLK_OE`, `DIO_OE`) at each `T` event, from the pins before the list. -/
def waveform (p : Bool × Bool) : List Event → List (Bool × Bool)
  | [] => []
  | .t :: es => p :: waveform p es
  | e :: es => waveform (pinsAfter p e) es

/-- `DIO_line` at each `C1` event with no other party driving DIO (R97), from the data pin before the list. -/
def levelsAtClockRise (p : Bool × Bool) : List Event → List Bool
  | [] => []
  | .c1 :: es => dioLine p.2 false :: levelsAtClockRise (pinsAfter p .c1) es
  | e :: es => levelsAtClockRise (pinsAfter p e) es

/-- `w_0 + 2*w_1 + 4*w_2 + ...` (R97). -/
def byteOfLevels : List Bool → Nat
  | [] => 0
  | w :: ws => w.toNat + 2 * byteOfLevels ws

/-! ## A receiver (R44) -/

/-- What the receiver recognises: start and stop conditions, and bytes with whether they were acknowledged. -/
inductive WireItem where
  | start
  | stop
  | byte (b : Byte) (acked : Bool)
  deriving DecidableEq, Repr

/-- The receiver: it watches both lines. The responder is taken to drive DIO low only inside acknowledgement slots (log 15):
`pulling` is true from an `S(0)` to the clock's next fall. -/
structure Receiver where
  clkOe : Bool
  dioOe : Bool
  /-- Between a start and a stop condition. -/
  inTxn : Bool
  /-- The data bits of the current byte, first received first. -/
  bits : List Bool
  /-- The clock has risen a ninth time: the acknowledgement slot. -/
  inAck : Bool
  pulling : Bool
  /-- The data pin was driven while the clock was low, and the clock has not risen since. -/
  held : Bool
  /-- The pins did something after which U8 leaves the responder open (log 17): the clock rose outside a transaction (a WRBYTE
  with no transaction open, spec/70_reset_and_hazards.md R177); the data pin was driven where that is neither a start
  condition nor part of a byte or of a stop (a START on a bus that is not idle, R176, spec/40_transport.md R91); a
  transaction ended without a byte (a STOP on an idle bus, R92). Once true it stays true: what the responder shows from then on
  is not known. -/
  stray : Bool
  log : List WireItem
  deriving DecidableEq, Repr

/-- A receiver outside a transaction and not pulling the data line, at the given pins: what the model takes the responder to
be at the beginning of every event list. After a reset inside a transaction its real state is unknown (R171, U18): that it
is this one is the model's choice, a premise of every statement about the wire or the display (log 17). -/
def Receiver.idle (clkOe dioOe : Bool) : Receiver := ⟨clkOe, dioOe, false, [], false, false, false, false, []⟩

/-- The clock pin is driven. A byte is complete when the clock falls at the end of its acknowledgement slot, acknowledged when the
line was last sampled low there (R44(d)); under `ACK_WAIT` the slot holds several samples and is still one slot (R98). -/
def receiveClockFall (r : Receiver) : Receiver :=
  if r.inAck then
    { r with
      clkOe := true, bits := [], inAck := false, pulling := false, held := false, stray := r.stray || r.held,
      log := r.log ++ [.byte (BitVec.ofNat 8 (byteOfLevels r.bits)) r.pulling] }
  else { r with clkOe := true, pulling := false, held := false, stray := r.stray || r.held }

/-- The clock pin is released. In a transaction a rise takes a data bit (R44(c)), the ninth begins the acknowledgement slot. -/
def receiveClockRise (r : Receiver) : Receiver :=
  if r.clkOe then
    if r.inTxn then
      if r.bits.length < 8 then
        { r with clkOe := false, held := false, bits := r.bits ++ [dioLine r.dioOe r.pulling] }
      else { r with clkOe := false, held := false, inAck := true }
    else { r with clkOe := false, held := false, stray := true }
  else r

/-- The data pin is driven: a start condition when the line falls while the clock is high (R44(a)). -/
def receiveDataLow (r : Receiver) : Receiver :=
  if clkLine r.clkOe then
    if dioLine r.dioOe r.pulling then
      { r with dioOe := true, inTxn := true, bits := [], inAck := false, log := r.log ++ [.start] }
    else { r with dioOe := true, stray := r.stray || r.dioOe }
  else { r with dioOe := true, held := true, stray := r.stray || r.held }

/-- The data pin is released: a stop condition when the line rises while the clock is high (R44(b)). -/
def receiveDataHigh (r : Receiver) : Receiver :=
  if clkLine r.clkOe && !dioLine r.dioOe r.pulling && dioLine false r.pulling then
    { r with
      dioOe := false, inTxn := false, bits := [], inAck := false,
      stray := r.stray || decide (r.log.getLast? = some .start), log := r.log ++ [.stop] }
  else { r with dioOe := false }

/-- One event seen by the receiver. -/
def receiveEvent (r : Receiver) : Event → Receiver
  | .c0 => receiveClockFall r
  | .c1 => receiveClockRise r
  | .d0 => receiveDataLow r
  | .d1 => receiveDataHigh r
  | .t => r
  | .s a => { r with pulling := !a && !r.dioOe }

/-- The receiver after a list of events. -/
def receiveAll (r : Receiver) (es : List Event) : Receiver := es.foldl receiveEvent r

/-- What a receiver recognises in a list of events that begins with the pins at `p` and the receiver outside a transaction,
not pulling the data line. The choice of that beginning, also for the first events after a reset inside a transaction, is
the model's (R171, log 17). -/
def wireItems (p : Bool × Bool) (es : List Event) : List WireItem := (receiveAll (Receiver.idle p.1 p.2) es).log

/-- A transaction's items: start, the bytes with their acknowledgements, stop (R61). -/
def transactionItems (bs : List Byte) (as : List Bool) : List WireItem :=
  .start :: (List.zipWith (fun b a => WireItem.byte b (!a)) bs as ++ [.stop])

/-- The items of several transactions, the samples dealt out in order. -/
def transactionsItems : List (List Byte) → List Bool → List WireItem
  | [], _ => []
  | bs :: rest, as => transactionItems bs (as.take bs.length) ++ transactionsItems rest (as.drop bs.length)

end Sys2Proof.Machine
end

