-- ==== Sys2Proof/Machine/Display.lean ====
section
/-! DEFINITION. The one address space the block can reach: the four display positions of a correct responder
(spec/20_memory.md R45, R46, R47). They are outside the block and no state of it (spec/10_state.md R28, R32); this file
computes from the trace what such a responder shows. Where the spec leaves the display open a position reads
as not known: R49, R117, U6, U11 (log 14), R91, R92, R176, R177, U8 (log 17). That a reset inside a transaction (R171, U18)
leaves the responder outside one is the model's choice (log 17). -/

namespace Sys2Proof.Machine

/-! ## Positions and bytes, in one canonical form -/

/-- Display memory: (position, segment byte), positions strictly rising. A position that is not listed is not known. -/
abbrev DisplayMem := List Host.Cell

/-- The canonical form: positions strictly rising and below 4 (R45). -/
def DisplayMem.wf : DisplayMem → Bool
  | [] => true
  | [(a, _)] => decide (a < 4)
  | (a, _) :: (b, v) :: rest => decide (a < b) && DisplayMem.wf ((b, v) :: rest)

/-- The byte at a position; `none` is "not known". -/
def DisplayMem.read (m : DisplayMem) (a : Nat) : Option Byte :=
  match m with
  | [] => none
  | (b, v) :: rest => if a = b then some v else DisplayMem.read rest a

/-- `MemWrite(DISP, a, 1, v)` (R47), keeping the canonical form. -/
def DisplayMem.write (a : Nat) (v : Byte) (m : DisplayMem) : DisplayMem :=
  match m with
  | [] => [(a, v)]
  | (b, w) :: rest =>
    if a < b then (a, v) :: (b, w) :: rest
    else if a = b then (a, v) :: rest
    else (b, w) :: DisplayMem.write a v rest

/-- Consecutive positions (R46: auto-increment), `MemWrite(DISP, a + k, 1, vs[k])`. -/
def DisplayMem.writeRun (a : Nat) (vs : List Byte) (m : DisplayMem) : DisplayMem :=
  match vs with
  | [] => m
  | v :: rest => DisplayMem.writeRun (a + 1) rest (DisplayMem.write a v m)

/-! ## What a correct responder shows -/

/-- The display: its positions, and the brightness and on/off bits last sent (R47, R64); `none` is "not known". -/
structure Display where
  mem : DisplayMem
  control : Option (BitVec 4)
  deriving DecidableEq, Repr

/-- Nothing is known of the display (R172, U11, U18). -/
def Display.unknown : Display := ⟨[], none⟩

/-- The transactions in a list of wire items; none when the items are not whole transactions. -/
def splitTransactions : Option (List (Byte × Bool)) → List WireItem → Option (List (List (Byte × Bool)))
  | none, [] => some []
  | none, .start :: rest => splitTransactions (some []) rest
  | some bs, .byte b a :: rest => splitTransactions (some (bs ++ [(b, a)])) rest
  | some bs, .stop :: rest => (splitTransactions none rest).map (fun ts => bs :: ts)
  | _, _ => none

/-- The bytes of a transaction, if every one was acknowledged. -/
def ackedBytes (ts : List (Byte × Bool)) : Option (List Byte) :=
  if ts.all (fun p => p.2) then some (ts.map (fun p => p.1)) else none

/-- One frame of R71 with every byte acknowledged, shown by a correct responder (R47). A frame that runs past position 3 leaves
every position open and still sets brightness and on/off from its third transaction (R47, R49, U6). `none` where the three
transactions are no such frame. -/
def showFrame (t1 t2 t3 : List (Byte × Bool)) (d : Display) : Option Display :=
  match ackedBytes t1, ackedBytes t2, ackedBytes t3 with
  | some [cmd], some (adr :: segs), some [ctl] =>
    let p := (adr &&& 0x3).toNat
    if cmd = 0x40 ∧ adr &&& 0xFC = 0xC0 ∧ ctl &&& 0xF0 = 0x80 ∧ 1 ≤ segs.length ∧ segs.length ≤ 4 then
      some ⟨if p + segs.length ≤ 4 then d.mem.writeRun p segs else [], some (ctl.setWidth 4)⟩
    else none
  | _, _, _ => none

/-- Transactions one after the other. Three that are a fully acknowledged frame are shown as R47 says, wherever they stand; a
transaction that begins no such frame is not described and leaves nothing known. That a frame after it is shown as R47 says
is the model's choice (log 14). -/
def showFrames : List (List (Byte × Bool)) → Display → Display
  | [], d => d
  | t1 :: t2 :: t3 :: rest, d =>
    match showFrame t1 t2 t3 d with
    | some d' => showFrames rest d'
    | none => showFrames (t2 :: t3 :: rest) Display.unknown
  | _, _ => Display.unknown

/-- What a correct responder shows after a list of events that begins with the pins at `p`, having shown `d` before and being
outside a transaction (the model's choice, R171, log 17). After a START on a bus that is not idle, a WRBYTE with no
transaction open or a STOP on an idle bus, U8 leaves the responder open: it is then not known to the end of the list
(R91, R92, R176, R177; the model's choice of how to recognise them is log 17). -/
def displayAfter (p : Bool × Bool) (es : List Event) (d : Display) : Display :=
  if (receiveAll (Receiver.idle p.1 p.2) es).stray then Display.unknown
  else
    match splitTransactions none (wireItems p es) with
    | none => Display.unknown
    | some ts => showFrames ts d

end Sys2Proof.Machine
end

