-- ==== Sys2Proof/Machine/Responder.lean ====
section
/-! DEFINITION. The reference responder of spec/95_test_vectors.md section 4, line by line. It is not part of the block and
the spec gives it from general knowledge, for end-to-end checks (PRESUMED, log 15). -/

namespace Sys2Proof.Machine

/-- "state: in_txn, nbits, shreg, pulling, log"; the pins are what it watches; `agrees` says that every sample so far was
the one this responder answers ("the oracle answers sample_dio() with 0 if pulling else 1"). -/
structure RefResponder where
  clkOe : Bool
  dioOe : Bool
  inTxn : Bool
  nbits : Nat
  shreg : Byte
  pulling : Bool
  log : List WireItem
  agrees : Bool
  deriving DecidableEq, Repr

/-- Before anything happened, at the given pins. -/
def RefResponder.idle (clkOe dioOe : Bool) : RefResponder := ⟨clkOe, dioOe, false, 0, 0, false, [], true⟩

/-- `shreg[nbits] <- DIO_line`. -/
def setBit (b : Byte) (i : Nat) (v : Bool) : Byte :=
  (b &&& ~~~((1 : Byte) <<< i)) ||| (((BitVec.ofBool v).setWidth 8) <<< i)

/-- One event seen by the reference responder. -/
def respondEvent (r : RefResponder) : Event → RefResponder
  | .c0 =>
    if !r.clkOe && r.inTxn && r.pulling then
      { r with clkOe := true, pulling := false, log := r.log ++ [.byte r.shreg true], nbits := 0 }
    else if !r.clkOe && r.inTxn && decide (r.nbits = 8) then { r with clkOe := true, pulling := true }
    else { r with clkOe := true }
  | .c1 =>
    if r.clkOe && r.inTxn && decide (r.nbits < 8) then
      { r with clkOe := false, shreg := setBit r.shreg r.nbits (dioLine r.dioOe r.pulling), nbits := r.nbits + 1 }
    else { r with clkOe := false }
  | .d0 =>
    if clkLine r.clkOe && dioLine r.dioOe r.pulling then
      { r with dioOe := true, inTxn := true, nbits := 0, log := r.log ++ [.start] }
    else { r with dioOe := true }
  | .d1 =>
    if clkLine r.clkOe && !dioLine r.dioOe r.pulling && dioLine false r.pulling then
      { r with dioOe := false, inTxn := false, pulling := false, log := r.log ++ [.stop] }
    else { r with dioOe := false }
  | .t => r
  | .s a => { r with agrees := r.agrees && decide (a = !r.pulling) }

/-- The reference responder after a list of events. -/
def respondAll (r : RefResponder) (es : List Event) : RefResponder := es.foldl respondEvent r

end Sys2Proof.Machine
end

