-- ==== Sys2Proof/Safety.lean ====
section
/-! DEFINITION. What counts as a safe state and a safe run: the invariant of the machine, an idle bus, the premises on
the acknowledgement oracle (spec/00_scope.md section 6) and on `ACK_WAIT` (spec/40_transport.md R98). -/

namespace Sys2Proof.Machine

/-- `sample_dio()` is performed with the data pin released (spec/20_memory.md R43), read off a micro-step list; the argument
says whether the data pin is released before it. -/
def samplesReleased : Bool → List MicroOp → Bool
  | _, [] => true
  | rel, .sample :: ops => rel && samplesReleased rel ops
  | _, .pin .dio .release :: ops => samplesReleased true ops
  | _, .pin .dio .drive :: ops => samplesReleased false ops
  | _, .holdIfAcked :: ops => samplesReleased false ops
  | rel, .pin .clk _ :: ops => samplesReleased rel ops
  | rel, .delay :: ops => samplesReleased rel ops
  | rel, .foldAck :: ops => samplesReleased rel ops

/-- What every step keeps: the parameters are as R5 and R66 require, `FMT_LEN` is in 1..4 (R14), `REM` and
`BASE_MAG` are in their widths (R18, R131), nothing is left to do when `BUSY` = 0, and a block that is busy between two steps waits for an acknowledgement
under `ACK_WAIT` (R98): its next entry is a sample, the last sample read 1, and it has not responded. -/
structure Inv (s : State) : Prop where
  cfg_wf : s.cfg.wf = true
  fmtLen_ge : 1 ≤ s.fmtLen.toNat
  fmtLen_le : s.fmtLen.toNat ≤ 4
  rem_lt : s.rem < 2 ^ s.cfg.valueW
  baseMag_le : s.baseMag ≤ 2 ^ (s.cfg.baseW - 1)
  idle_done : s.busy = false → s.todo = []
  busy_ackWait : s.busy = true → s.cfg.ackWait = true
  busy_sample : s.busy = true → s.todo.head? = some .sample
  busy_smp : s.busy = true → s.smp = true
  busy_silent : s.busy = true → s.rsp = none
  todo_released : samplesReleased (!s.dioOe) s.todo = true

/-- The bus is idle: both pins released (R96). -/
def busIdle (s : State) : Bool := !s.clkOe && !s.dioOe

/-- The host may present this to a block of these widths: a word where the word's layout is bound to them, a decoded command
whose operands fit (R74). -/
def presentable (c : Config) : Presented → Bool
  | .word _ => c.takesWords
  | .decoded i => i.fits c

/-- The block takes a command at the next step: not in reset, not busy. -/
def ready (s : State) : Bool := !s.resetIn && !s.busy

/-- The next n samples all read 0: "every sample returns 0" for a command that samples n times (R98). -/
def everySampleZero (s : State) (n : Nat) : Prop := ∀ k, k < n → answerAt s k = false

/-! ## Views of a state that claims are stated over -/

/-- The registers of R10, but for `UPC`, which has claims of its own (log 6). -/
structure Regs where
  clkOe : Bool
  dioOe : Bool
  bright : BitVec 4
  fmtLen : BitVec 3
  fmtLz : Bool
  fmtDots : Byte
  dig : Vector Byte 4
  rem : Nat
  baseMag : Nat
  neg : Bool
  msk : Byte
  lastAck : Bool
  allAck : Bool
  busy : Bool
  tr : List Event
  deriving DecidableEq, Repr

/-- The registers of a state. -/
def State.regs (s : State) : Regs :=
  ⟨s.clkOe, s.dioOe, s.bright, s.fmtLen, s.fmtLz, s.fmtDots, s.dig, s.rem, s.baseMag, s.neg, s.msk, s.lastAck, s.allAck,
    s.busy, s.tr⟩

/-- What is outside the block: the words still to come, the reset wire, the oracle, the draws and the parameters. -/
structure Outside where
  cmdQueue : List Presented
  resetIn : Bool
  answers : List Bool
  sampleNo : Nat
  resetNo : Nat
  cfg : Config
  deriving DecidableEq, Repr

/-- The outside world of a state. -/
def State.outside (s : State) : Outside := ⟨s.cmdQueue, s.resetIn, s.answers, s.sampleNo, s.resetNo, s.cfg⟩

/-- Command i, performed at s, answers a next state: it holds the registers and the outside world of e, every one of them,
and its response port shows r. -/
def CompletesAs (i : Instr) (s e : State) (r : Response) : Prop :=
  ∃ t, exec i s = .next t ∧ t.regs = e.regs ∧ t.outside = e.outside ∧ t.rsp = some r

/-- The digit count and start position of the frame a command sends, none for a command that sends no frame. -/
def frameOf (i : Instr) (s : State) : Option (Nat × Byte) :=
  match i with
  | .start => none
  | .stop => none
  | .wrbyte _ => none
  | .encode _ => none
  | .setseg _ _ _ _ len pos => some (len.toNat, pos)
  | .setbrt _ _ => none
  | .setfmt _ _ _ => none
  | .showbase _ _ _ _ len pos => some (len.toNat, pos)
  | .showdec _ _ _ len pos => some (len.toNat, pos)
  | .showhex _ _ _ len pos => some (len.toNat, pos)
  | .showbaseD _ _ pos => some (s.fmtLen.toNat, pos)
  | .showdecD _ pos => some (s.fmtLen.toNat, pos)
  | .showhexD _ pos => some (s.fmtLen.toNat, pos)

/-- How many bytes a command writes on the wire when it is performed (R83, R116). -/
def bytesWritten (i : Instr) (s : State) : Nat :=
  match frameOf i s with
  | some (len, _) => 3 + len
  | none =>
    match i with
    | .wrbyte _ => 1
    | _ => 0

end Sys2Proof.Machine
end

