-- ==== Sys2Proof/Certificates/Slice0/Obligations.lean ====
section
/-! DEFINITION. The statements for the provers. A statement that holds for both values of `ACK_WAIT` has no premise on it;
one about a sample that is taken once has the premise `ackWait = false` (the value the spec takes, R98), and the statements
AckWait… say what the other value does. -/

open Sys2Proof Sys2Proof.Machine

namespace Sys2Proof.Machine

/-- The (match, mask) pairs of spec/opcode_table.json, row by row. -/
def opcodeRows : List (CmdWord × CmdWord) :=
  [(0x0000000000000000, 0xFFFFFFFFFFFFFFFF), (0x1000000000000000, 0xFFFFFFFFFFFFFFFF),
   (0x2000000000000000, 0xFFFFFFFFFFFFFF00), (0x3000000000000000, 0xFFFFFFFFFFFFFF00),
   (0x4000000000000000, 0xFFFF000000000000), (0x5000000000000000, 0xFFFFFFFFFFFFFE00),
   (0x6000000000000000, 0xFFFFFF00FE00FFFF)] ++
  [(0x7000000000000000, 0xFF000000FE000000), (0x8000000000000000, 0xFFFF0000FE000000),
   (0x9000000000000000, 0xFFFF0000FE000000), (0xA000000000000000, 0xFF0000FFFFFF0000),
   (0xB000000000000000, 0xFFFF00FFFFFF0000), (0xC000000000000000, 0xFFFF00FFFFFF0000)]

/-- A pin event. -/
def isPinEvent : Event → Bool
  | .t => false
  | .s _ => false
  | _ => true

/-- A sample event. -/
def isSampleEvent : Event → Bool
  | .s _ => true
  | _ => false

/-- Pin writes, `T`, `S`, total: the columns of R99. -/
def eventCounts (es : List Event) : Nat × Nat × Nat × Nat :=
  (es.countP isPinEvent, es.count .t, es.countP isSampleEvent, es.length)

/-- An event that no acknowledgement changes: the clock pin and the delays. -/
def isClockOrDelay : Event → Bool
  | .c0 => true
  | .c1 => true
  | .t => true
  | _ => false

/-- The `delay()` calls of a command that is performed (the table of R185). -/
def delayCalls (i : Instr) (s : State) : Nat :=
  match frameOf i s with
  | some (len, _) => 96 + 28 * len
  | none =>
    match i with
    | .start => 1
    | .stop => 3
    | .wrbyte _ => 28
    | _ => 0

/-- The data pin is written only while the clock pin is driven low, from the clock pin before the list. -/
def dataMovesOnlyWhileLow : Bool → List Event → Bool
  | _, [] => true
  | _, .c0 :: es => dataMovesOnlyWhileLow true es
  | _, .c1 :: es => dataMovesOnlyWhileLow false es
  | low, .d0 :: es => low && dataMovesOnlyWhileLow low es
  | low, .d1 :: es => low && dataMovesOnlyWhileLow low es
  | low, .t :: es => dataMovesOnlyWhileLow low es
  | low, .s _ :: es => dataMovesOnlyWhileLow low es

/-- A one-bit operand as a number. -/
def bitWord (b : Bool) : CmdWord := if b then 1 else 0

/-- The machine with its parameter `ACK_WAIT` set. -/
def setAckWait (b : Bool) (s : State) : State := { s with cfg := { s.cfg with ackWait := b } }

/-- The commands that store the format fields (R14). -/
def storesFormat : Instr → Bool
  | .setfmt _ _ _ => true
  | .showbase _ _ _ _ _ _ => true
  | .showdec _ _ _ _ _ => true
  | .showhex _ _ _ _ _ => true
  | _ => false

/-- The commands that run the formatter. -/
def formats : Instr → Bool
  | .showbase _ _ _ _ _ _ => true
  | .showdec _ _ _ _ _ => true
  | .showhex _ _ _ _ _ => true
  | .showbaseD _ _ _ => true
  | .showdecD _ _ => true
  | .showhexD _ _ => true
  | _ => false

end Sys2Proof.Machine

/-! ## Encodings -/

/-- Every command whose operands fit the word (`value` u16, `num` s16, `base` s8, R81) is read back from its word, with every
operand at every value. -/
def Obligations.DecodeOfEncode : Prop := ∀ i : Instr, i.HasWord → decode (encode i) = .ok i

/-- A word that decodes is the one word of its command, and that command's operands fit the word: no bit of an accepted word
is dropped. -/
def Obligations.EncodeOfDecode : Prop := ∀ (w : CmdWord) (i : Instr), decode w = .ok i → i.HasWord ∧ encode i = w

/-- A word decodes exactly when it matches a row of the opcode table under the row's mask. -/
def Obligations.DecodeAcceptsTheOpcodeTable : Prop :=
  ∀ w : CmdWord, (∃ i, decode w = .ok i) ↔ ∃ row ∈ opcodeRows, w &&& row.2 = row.1

/-- Words written out from the formats R76 to R82, one of each format, and a reserved opcode and a reserved bit. -/
def Obligations.DecodeSampleWords : Prop :=
  decode 0x1000000000000000 = .ok .stop ∧
  decode 0x2000000000000040 = .ok (.wrbyte 0x40) ∧
  decode 0x40000704AA5500FF = .ok (.setseg 0xFF 0x00 0x55 0xAA 4 7) ∧
  decode 0x5000000000000107 = .ok (.setbrt 7 true) ∧
  decode 0x6000000401400000 = .ok (.setfmt 4 true 0x40) ∧
  decode 0x70F603020181BEEF = .ok (.showbase (-10) 0xBEEF 0x81 true 2 3) ∧
  decode 0xA00A000000000005 = .ok (.showbaseD 10 5 0) ∧
  decode 0xD000000000000000 = .error (.reservedOpcode 13) ∧
  decode 0x2000000000000140 = .error (.reservedBits 2)

/-- R63, R64, R69: the wire command bytes and the brightness packing, as numbers. -/
def Obligations.CommandBytesAndBrightnessPacking : Prop :=
  (∀ pos : Byte, (addressCommand pos).toNat = 0xC0 + pos.toNat % 4) ∧
  (∀ bright : BitVec 4, (controlCommand bright).toNat = 0x80 + bright.toNat) ∧
  (∀ (level : Byte) (on : Bool), (packBright level on).toNat = level.toNat % 8 + (if on then 8 else 0))

/-! ## The step -/

/-- A word on the command port of a block that is ready is taken, and the decoded command is performed by `exec`, on a block of
the operand widths the word's layout is bound to (R74). -/
def Obligations.StepRunsTheDecodedCommand : Prop :=
  ∀ (s : State) (w : CmdWord) (ps : List Presented) (i : Instr),
    s.cfg.takesWords = true → s.resetIn = false → s.busy = false → s.cmdQueue = .word w :: ps → decode w = .ok i →
    step s = exec i { s with cmdQueue := ps }

/-- R74: a block of other operand widths than 16 and 8 takes decoded commands, not words. The rest is the model's choice: that a
block of the widths 16 and 8 takes a decoded command too and then does what its word does, and that a word with no layout
and a command that does not fit end the run by name (log 4), and the width of `num` in `fits` (log 1). -/
def Obligations.DecodedCommandsAtEveryWidth : Prop :=
  ∀ (s : State) (ps : List Presented), s.resetIn = false → s.busy = false →
    (∀ i : Instr, s.cmdQueue = .decoded i :: ps →
      (i.fits s.cfg = true → step s = exec i { s with cmdQueue := ps }) ∧
      (i.fits s.cfg = false → step s = .refused .operandTooWide) ∧
      (s.cfg.takesWords = true → i.fits s.cfg = true →
        step s = step { s with cmdQueue := .word (encode i) :: ps })) ∧
    (∀ w : CmdWord, s.cmdQueue = .word w :: ps → s.cfg.takesWords = false → step s = .refused .noWordLayout)

/-- Placed by `withFetchWord`, the word of a command is the next one performed. That the placing puts the word in front and
leaves a block that is not busy, not in reset and has nothing left to do is the model's choice (log 4): R54 says only that a
ready block takes the word presented. -/
def Obligations.FetchWordRunsTheCommand : Prop :=
  ∀ (s : State) (i : Instr), s.cfg.takesWords = true → i.HasWord →
    step (s.withFetchWord 64 (encode i).toNat) = exec i { s with busy := false, todo := [], resetIn := false }

/-- R54: while `BUSY` = 1 the command port accepts nothing; a presented word stands there untouched after the step. -/
def Obligations.BusyBlockTakesNoCommand : Prop :=
  ∀ s : State, s.resetIn = false → s.busy = true → ∃ t, step s = .next t ∧ t.cmdQueue = s.cmdQueue ∧ cmdReady s = false

/-- With no word presented a ready block does nothing; the response of the last command is no longer shown (the model's
choice of a one-step response pulse, log 5). -/
def Obligations.ReadyBlockWithoutCommandIdles : Prop :=
  ∀ s : State, s.resetIn = false → s.busy = false → s.cmdQueue = [] →
    ∃ t, step s = .next t ∧ t.regs = s.regs ∧ t.outside = s.outside ∧ t.upc = s.upc ∧ t.rsp = none

/-- R84: a word with a reserved opcode or a reserved bit is answered `(ILLEGAL, 1, 0)`; of the registers only `ALL_ACK`
(and `BUSY`, `UPC`) is written, and the trace gets no event. -/
def Obligations.IllegalWordsAreAnsweredAndChangeNothing : Prop :=
  ∀ (s : State) (w : CmdWord) (ps : List Presented),
    s.cfg.takesWords = true → s.resetIn = false → s.busy = false → s.cmdQueue = .word w :: ps →
    (13 ≤ (w >>> 60).toNat ∨ ∃ row ∈ opcodeRows, w >>> 60 = row.1 >>> 60 ∧ w &&& row.2 ≠ row.1) →
    ∃ t, step s = .next t ∧ t.regs = { s with allAck := true, busy := false }.regs ∧
      t.outside = { s with cmdQueue := ps }.outside ∧ t.rsp = some ⟨.illegal, true, 0⟩

/-- R150, R163: no step stops, as long as what is presented is a word or command the block's widths allow (R74); every command
is answered, after at most 430 events on the pins, and the block is then ready (`ACK_WAIT` false; `FMT_LEN` in 1..4 is the
invariant of R14). -/
def Obligations.NothingFaultsAndEveryCommandIsAnswered : Prop :=
  (∀ s : State, (∀ p ∈ s.cmdQueue.head?, presentable s.cfg p = true) → ∃ t, step s = .next t) ∧
  (∀ (i : Instr) (s : State), s.cfg.wf = true → s.cfg.ackWait = false → s.fmtLen.toNat ≤ 4 →
    ∃ t r, exec i s = .next t ∧ t.rsp = some r ∧ t.busy = false ∧ t.todo = [] ∧ t.tr.length ≤ s.tr.length + 430)

/-! ## Transport -/

/-- R91: START drives the data pin, then one delay. A start condition appears on the wire exactly when the bus was idle. -/
def Obligations.StartEffect : Prop :=
  (∀ s : State, CompletesAs .start s
    { s with dioOe := true, allAck := true, busy := false, tr := s.tr ++ [.d0, .t] } ⟨.ok, true, 0⟩) ∧
  (∀ clk dio : Bool, wireItems (clk, dio) [.d0, .t] = if clk = false ∧ dio = false then [WireItem.start] else []) ∧
  encode .start = 0x0000000000000000

/-- R92: STOP drives the data pin, releases the clock, releases the data pin, a delay after each; the bus is idle after it
whatever the pins were, and the wire shows a stop condition (after an empty start on an idle bus). -/
def Obligations.StopEffect : Prop :=
  (∀ s : State, CompletesAs .stop s
    { s with clkOe := false, dioOe := false, allAck := true, busy := false, tr := s.tr ++ [.d0, .t, .c1, .t, .d1, .t] }
    ⟨.ok, true, 0⟩) ∧
  (∀ clk dio : Bool, wireItems (clk, dio) [.d0, .t, .c1, .t, .d1, .t] =
    if clk = false ∧ dio = false then [WireItem.start, WireItem.stop] else [WireItem.stop]) ∧
  encode .stop = 0x1000000000000000

/-- R93, R94, R95: WRBYTE sends eight bit slots, bit 0 first, and one acknowledgement slot that takes one answer of the
oracle; both flags and the response are 1 exactly when that answer is 0. -/
def Obligations.WrbyteEffect : Prop :=
  (∀ (b : Byte) (s : State), s.cfg.ackWait = false →
    CompletesAs (.wrbyte b) s
      { s with
        clkOe := true, dioOe := !answerAt s 0, lastAck := !answerAt s 0, allAck := !answerAt s 0, busy := false,
        tr := s.tr ++ byteEvents b (answerAt s 0), answers := s.answers.drop 1, sampleNo := s.sampleNo + 1 }
      ⟨.ok, !answerAt s 0, 0⟩) ∧
  (∀ (b : Byte) (a : Bool), (byteEvents b a).length = (if a then 57 else 58) ∧ (byteEvents b a).count .t = 28) ∧
  (∀ b : Byte, encode (.wrbyte b) = 0x2000000000000000 ||| b.setWidth 64)

/-- R96 (marked by the spec as derived): the pins after `start()`, `stop()` and `write_byte(b)`, whatever they were
before. -/
def Obligations.PinsAfterEachProcedure : Prop :=
  ∀ (s : State) (b : Byte), s.cfg.ackWait = false →
    (∃ t, exec .start s = .next t ∧ (t.clkOe, t.dioOe) = (s.clkOe, true)) ∧
    (∃ t, exec .stop s = .next t ∧ (t.clkOe, t.dioOe) = (false, false)) ∧
    (∃ t, exec (.wrbyte b) s = .next t ∧
      (t.clkOe, t.dioOe) = (if answerAt s 0 = false then (true, true) else (true, false)))

/-- R97 (marked by the spec as derived), the loopback property: the data line at the clock rises of the eight bit slots
carries the bits of the byte, least significant first, and they add up to the byte; the data pin moves only while the
clock is low. -/
def Obligations.WrbyteLoopback : Prop :=
  ∀ (b : Byte) (s : State), s.cfg.ackWait = false →
    ∃ t es, exec (.wrbyte b) s = .next t ∧ t.tr = s.tr ++ es ∧
      (levelsAtClockRise (s.clkOe, s.dioOe) es).take 8 = (List.range 8).map b.getLsbD ∧
      byteOfLevels ((levelsAtClockRise (s.clkOe, s.dioOe) es).take 8) = b.toNat ∧
      dataMovesOnlyWhileLow s.clkOe (es.take 48) = true

/-- R99 (marked by the spec as derived): the event counts of the procedures, one row each. -/
def Obligations.EventCountsOfProcedures : Prop :=
  ∀ (s : State), s.cfg.ackWait = false →
    (∃ es, (perform startOps s).tr = s.tr ++ es ∧ eventCounts es = (1, 1, 0, 2)) ∧
    (∃ es, (perform stopOps s).tr = s.tr ++ es ∧ eventCounts es = (3, 3, 0, 6)) ∧
    (∀ v, ∃ es, (perform (bitSlotOps v) s).tr = s.tr ++ es ∧ eventCounts es = (3, 3, 0, 6)) ∧
    (∃ es, (perform ackSlotOps s).tr = s.tr ++ es ∧
      eventCounts es = (if answerAt s 0 = false then (5, 4, 1, 10) else (4, 4, 1, 9))) ∧
    (∀ b, ∃ es, (perform (writeByteOps b) s).tr = s.tr ++ es ∧
      eventCounts es = (if answerAt s 0 = false then (29, 28, 1, 58) else (28, 28, 1, 57)))

/-- R43: a sample with the data pin driven reads 0 and asks nobody; with the pin released it reads the oracle's next answer.
Every sample of a byte and of a frame is performed with the data pin released. -/
def Obligations.SampleReadsTheLine : Prop :=
  (∀ (driven : Bool) (b : Byte), samplesReleased driven (writeByteOps b) = true) ∧
  (∀ (driven : Bool) (len : Nat) (pos : Byte) (s : State), samplesReleased driven (setSegmentsOps len pos s) = true) ∧
  ∀ s : State,
    (s.dioOe = true → doOp .sample s = { s with smp := false, upc := s.upc + 1, tr := s.tr ++ [.s false] }) ∧
    (s.dioOe = false → doOp .sample s =
      { s with
        smp := answerAt s 0, upc := s.upc + 1, tr := s.tr ++ [.s (answerAt s 0)],
        answers := s.answers.drop 1, sampleNo := s.sampleNo + 1 })

/-- R177 (marked by the spec as derived): WRBYTE on an idle bus makes no start condition and no stop condition, whatever is
sampled, and the pins it leaves are those of R183, the bus not idle. What the responder makes of the clocks is open (U8):
that the receiver takes nothing from them and that the display is not known after them is the model's choice (log 17). -/
def Obligations.WrbyteOnAnIdleBusIsNotReceived : Prop :=
  ∀ (b : Byte) (s : State), s.cfg.ackWait = false → s.clkOe = false → s.dioOe = false →
    ∃ t es, exec (.wrbyte b) s = .next t ∧ t.tr = s.tr ++ es ∧ wireItems (false, false) es = [] ∧ busIdle t = false ∧
      ∀ d, displayAfter (false, false) es d = Display.unknown

/-- R26: the waveform has one pair for each `T` of the trace, and a pin write that does not change its register shows in the
trace and not in the waveform. -/
def Obligations.WaveformShowsOnlyChanges : Prop :=
  (∀ (p : Bool × Bool) (es : List Event), (waveform p es).length = es.count .t) ∧
  (∀ (p : Bool × Bool) (before : List Event) (e : Event) (rest : List Event), e ≠ .t →
    pinsAfter (before.foldl pinsAfter p) e = before.foldl pinsAfter p →
    waveform p (before ++ e :: rest) = waveform p (before ++ rest))

/-- The waiting reading of R98: WRBYTE on a bus where the responder answers n ones and then a zero takes n + 1 samples in
its acknowledgement slot, with no delay between them, and is then acknowledged. That this takes n + 1 steps, one for each
sample, is the model's choice (log 7). -/
def Obligations.AckWaitSamplesUntilAcknowledged : Prop :=
  ∀ (n : Nat) (b : Byte) (s : State) (ps : List Presented) (rest : List Bool),
    s.cfg.ackWait = true → s.cfg.takesWords = true → s.resetIn = false → s.busy = false →
    s.cmdQueue = .word (encode (.wrbyte b)) :: ps → s.answers = List.replicate n true ++ false :: rest →
    ∃ t, Sys2Proof.core.run (n + 1) s = .next t ∧ t.rsp = some ⟨.ok, true, 0⟩ ∧
      t.regs = { s with
        clkOe := true, dioOe := true, lastAck := true, allAck := true, tr := s.tr ++ waitedByteEvents b n }.regs ∧
      t.outside = { s with cmdQueue := ps, answers := rest, sampleNo := s.sampleNo + (n + 1) }.outside

/-- R44(d) under `ACK_WAIT`: an acknowledgement slot of several samples is one slot. A transaction whose one byte is answered by
n ones and then a zero carries that one byte, acknowledged (the receiver's premises are the model's, log 15, log 17). -/
def Obligations.AckWaitSlotIsOneByteOnTheWire : Prop :=
  ∀ (b : Byte) (n : Nat),
    wireItems (false, false) (startEvents ++ waitedByteEvents b n ++ stopEvents) = [.start, .byte b true, .stop]

/-- R98, R163, U1: under `ACK_WAIT` a responder that does not pull the line low keeps the block in the loop: no response is
given, no command is taken, and the samples are all that happens. That one step takes exactly one sample, so that n steps
take n, is the model's choice (log 7). -/
def Obligations.AckWaitHangsWithoutAcknowledgement : Prop :=
  ∀ (n : Nat) (s : State) (rest : List Bool),
    s.cfg.ackWait = true → s.resetIn = false → s.busy = true → s.todo.head? = some .sample → s.dioOe = false →
    s.answers = List.replicate n true ++ rest →
    ∃ t, Sys2Proof.core.run n s = .next t ∧ t.busy = true ∧ t.rsp = s.rsp ∧
      t.regs = { s with tr := s.tr ++ List.replicate n (Event.s true) }.regs ∧ t.todo = s.todo ∧
      t.outside = { s with answers := rest, sampleNo := s.sampleNo + n }.outside

/-- The last sentence of R98: under "every sample returns 0" both values of `ACK_WAIT` give the same command. -/
def Obligations.AckWaitVariantsAgreeWhenAcknowledged : Prop :=
  ∀ (i : Instr) (s : State), s.cfg.wf = true → s.cfg.ackWait = true → s.fmtLen.toNat ≤ 4 → everySampleZero s 7 →
    ∃ t, exec i (setAckWait false s) = .next t ∧ exec i s = .next (setAckWait true t)

/-! ## Encoder -/

/-- R110: ENCODE answers the glyph of the low four bits and writes no register but `ALL_ACK`; bit 7 of the answer is 0. -/
def Obligations.EncodeEffect : Prop :=
  (∀ (d : Byte) (s : State), CompletesAs (.encode d) s { s with allAck := true, busy := false }
    ⟨.ok, true, s.cfg.glyph.getD (d.toNat % 16) 0⟩) ∧
  (∀ (c : Config) (n : Nat), encodeDigit c n = encodeDigit c (n &&& 0xF)) ∧
  (∀ (c : Config) (n : Nat), c.wf = true → (encodeDigit c n).getLsbD 7 = false) ∧
  (∀ d : Byte, encode (.encode d) = 0x3000000000000000 ||| d.setWidth 64)

/-- R112: SETBRT writes `BRIGHT` = {on, level[2:0]} and nothing else; no pin moves. `BRIGHT` is seen only in the third
transaction of a frame. -/
def Obligations.SetbrtEffect : Prop :=
  (∀ (level : Byte) (on : Bool) (s : State),
    CompletesAs (.setbrt level on) s
      { s with bright := BitVec.ofNat 4 (level.toNat % 8 + (if on then 8 else 0)), allAck := true, busy := false }
      ⟨.ok, true, 0⟩) ∧
  (∀ (level : Byte) (on : Bool),
    encode (.setbrt level on) = 0x5000000000000000 ||| bitWord on <<< 8 ||| level.setWidth 64) ∧
  (∀ (v : BitVec 4) (len : Nat) (pos : Byte) (s : State),
    frameBytes len pos { s with bright := v } = (frameBytes len pos s).take 2 ++ [[0x80 ||| v.setWidth 8]])

/-- R113: SETFMT with len in 1..4 writes the three format fields together; otherwise it is refused and writes none. -/
def Obligations.SetfmtEffect : Prop :=
  ∀ (len : Byte) (lz : Bool) (dots : Byte) (s : State), s.cfg.wf = true →
    (1 ≤ len.toNat → len.toNat ≤ 4 →
      CompletesAs (.setfmt len lz dots) s
        { s with fmtLen := BitVec.ofNat 3 len.toNat, fmtLz := lz, fmtDots := dots, allAck := true, busy := false }
        ⟨.ok, true, 0⟩) ∧
    (len.toNat < 1 ∨ 4 < len.toNat →
      CompletesAs (.setfmt len lz dots) s { s with allAck := true, busy := false } ⟨.refused, true, 0⟩) ∧
    encode (.setfmt len lz dots) =
      0x6000000000000000 ||| len.setWidth 64 <<< 32 ||| bitWord lz <<< 24 ||| dots.setWidth 64 <<< 16

/-- R115: SETSEG with len in 1..4 loads the raw bytes below len and sends one frame; otherwise it is refused, loads nothing
and moves no pin. `frameEffect` gives the pins, flags, events and oracle after a frame (R114). -/
def Obligations.SetsegEffect : Prop :=
  ∀ (seg0 seg1 seg2 seg3 len pos : Byte) (s : State), s.cfg.wf = true →
    (1 ≤ len.toNat → len.toNat ≤ 4 → s.cfg.ackWait = false →
      CompletesAs (.setseg seg0 seg1 seg2 seg3 len pos) s
        (frameEffect len.toNat pos
          { s with allAck := true, dig := replaceDigits len.toNat (fun k => [seg0, seg1, seg2, seg3].getD k 0) s.dig })
        ⟨.ok, allAcked s (3 + len.toNat), 0⟩) ∧
    (len.toNat < 1 ∨ 4 < len.toNat →
      CompletesAs (.setseg seg0 seg1 seg2 seg3 len pos) s { s with allAck := true, busy := false } ⟨.refused, true, 0⟩) ∧
    encode (.setseg seg0 seg1 seg2 seg3 len pos) =
      0x4000000000000000 ||| pos.setWidth 64 <<< 40 ||| len.setWidth 64 <<< 32 ||| seg3.setWidth 64 <<< 24 |||
        seg2.setWidth 64 <<< 16 ||| seg1.setWidth 64 <<< 8 ||| seg0.setWidth 64

/-- R111: the overlay ORs bit 7 - i of the mask into bit 7 of `DIG[i]` for i < len and changes nothing else but `MSK`. -/
def Obligations.OverlayClosedForm : Prop :=
  ∀ (len : Nat) (mask : Byte) (s : State), 1 ≤ len → len ≤ 4 →
    overlayDots len mask s = { s with dig := (overlayDots len mask s).dig, msk := mask <<< len } ∧
    ∀ i, i < 4 → ∀ b, b < 8 →
      (readDig (overlayDots len mask s) i).getLsbD b =
        ((readDig s i).getLsbD b || (decide (i < len) && decide (b = 7) && mask.getLsbD (7 - i)))

/-- R116 (marked by the spec as derived): the byte sequence of a frame and its trace: each transaction is start, its
bytes, stop; 3 + len bytes, 3 starts, 3 stops, 96 + 28 len delays. -/
def Obligations.FrameBytesAndTrace : Prop :=
  ∀ (len : Nat) (pos : Byte) (s : State), 1 ≤ len → len ≤ 4 → s.cfg.ackWait = false →
    frameBytes len pos s =
      [[0x40], (0xC0 ||| (pos &&& 3)) :: (List.range len).map (readDig s), [0x80 ||| s.bright.setWidth 8]] ∧
    ((frameBytes len pos s).map List.length).sum = 3 + len ∧
    (sendFrame len pos s).tr = s.tr ++ transactionsEvents (frameBytes len pos s) (nextAnswers s (3 + len)) ∧
    (transactionsEvents (frameBytes len pos s) (nextAnswers s (3 + len))).count .t = 96 + 28 * len

/-- R185 (marked by the spec as derived): the `delay()` calls of every command, of a transaction of n bytes, and of an
illegal word; and whether the clock is low at each call of a data slot and of an acknowledgement slot. -/
def Obligations.DelayCallCounts : Prop :=
  (∀ (i : Instr) (s : State), s.cfg.wf = true → s.cfg.ackWait = false →
    1 ≤ s.fmtLen.toNat → s.fmtLen.toNat ≤ 4 →
    ∃ t es, exec i s = .next t ∧ t.tr = s.tr ++ es ∧ es.count .t = (if i.wf s.cfg then delayCalls i s else 0)) ∧
  (∀ (bs : List Byte) (s : State), s.cfg.ackWait = false →
    ∃ es, (perform (startOps ++ bs.flatMap writeByteOps ++ stopOps) s).tr = s.tr ++ es ∧ es.count .t = 4 + 28 * bs.length) ∧
  (∀ s : State, (illegal s).tr = s.tr) ∧
  (∀ (p : Bool × Bool) (v : Bool), (waveform p (bitSlotEvents v)).map Prod.fst = [true, true, false]) ∧
  (∀ (p : Bool × Bool) (a : Bool), (waveform p (ackSlotEvents a)).map Prod.fst = [true, false, false, true])

/-- R71: whatever the acknowledgements, a command that sends a frame on an idle bus puts exactly three transactions on the
wire, read off the two lines by a receiver of the wire conditions R44 (its premises are the model's, log 15, log 17). -/
def Obligations.FrameOnTheWire : Prop :=
  ∀ (i : Instr) (s : State) (len : Nat) (pos : Byte),
    s.cfg.wf = true → s.cfg.ackWait = false → i.WellFormed s.cfg →
    frameOf i s = some (len, pos) → 1 ≤ len → len ≤ 4 → s.clkOe = false → s.dioOe = false →
    ∃ t es, exec i s = .next t ∧ t.tr = s.tr ++ es ∧ t.clkOe = false ∧ t.dioOe = false ∧
      wireItems (false, false) es = transactionsItems (frameBytes len pos t) (nextAnswers s (3 + len))

/-- R47 (marked by the spec as derived): after a fully acknowledged frame a correct responder takes brightness and on/off from
`BRIGHT`; if the frame stays within the four positions it shows `DIG[k]` at position (pos & 3) + k and keeps the other
positions; if it runs past position 3 every position is open (R49, U6). For both values of `ACK_WAIT`, whatever it showed
before. The display is the model's observation (log 14), and so are the receiver's premises (log 15, log 17). -/
def Obligations.DisplayShowsTheFrame : Prop :=
  ∀ (i : Instr) (s : State) (len : Nat) (pos : Byte) (d : Display),
    s.cfg.wf = true → i.WellFormed s.cfg → frameOf i s = some (len, pos) → 1 ≤ len → len ≤ 4 →
    s.clkOe = false → s.dioOe = false → everySampleZero s (3 + len) →
    ∃ t es, exec i s = .next t ∧ t.tr = s.tr ++ es ∧
      (displayAfter (false, false) es d).control = some t.bright ∧
      (pos.toNat % 4 + len ≤ 4 →
        (∀ k, k < len → (displayAfter (false, false) es d).mem.read (pos.toNat % 4 + k) = some (readDig t k)) ∧
        ∀ a, (a < pos.toNat % 4 ∨ pos.toNat % 4 + len ≤ a) →
          (displayAfter (false, false) es d).mem.read a = d.mem.read a) ∧
      (4 < pos.toNat % 4 + len → ∀ a, (displayAfter (false, false) es d).mem.read a = none)

/-- The reference responder of 95_test_vectors.md section 4 acknowledges every byte of a frame sent on an idle bus and
reads the same three transactions (general knowledge, log 15). -/
def Obligations.ReferenceResponderReadsTheFrame : Prop :=
  ∀ (i : Instr) (s : State) (len : Nat) (pos : Byte),
    s.cfg.wf = true → s.cfg.ackWait = false → i.WellFormed s.cfg →
    frameOf i s = some (len, pos) → 1 ≤ len → len ≤ 4 → s.clkOe = false → s.dioOe = false → everySampleZero s (3 + len) →
    ∃ t es, exec i s = .next t ∧ t.tr = s.tr ++ es ∧
      (respondAll (RefResponder.idle false false) es).agrees = true ∧
      (respondAll (RefResponder.idle false false) es).log =
        transactionsItems (frameBytes len pos t) (List.replicate (3 + len) false)

/-- R117, R164: fire and forget. Two runs of a command that differ in the responder's answers only leave the same digit
buffer, working, format and brightness registers, clock the same clock-pin and delay events, and put the same bits on the
data line at the clock's rises. -/
def Obligations.AcknowledgementsChangeNoDecision : Prop :=
  ∀ (i : Instr) (s s' : State), s.cfg.wf = true → s.cfg.ackWait = false → 1 ≤ s.fmtLen.toNat → s.fmtLen.toNat ≤ 4 →
    s' = { s with answers := s'.answers, sampleNo := s'.sampleNo } →
    ∃ t t' es es', exec i s = .next t ∧ exec i s' = .next t' ∧ t.tr = s.tr ++ es ∧ t'.tr = s.tr ++ es' ∧
      t'.regs = { t with tr := t'.tr, dioOe := t'.dioOe, lastAck := t'.lastAck, allAck := t'.allAck }.regs ∧
      es'.filter isClockOrDelay = es.filter isClockOrDelay ∧
      levelsAtClockRise (s.clkOe, s.dioOe) es' = levelsAtClockRise (s.clkOe, s.dioOe) es

/-! ## Number formatting -/

/-- R130 position by position: with j the place counted from the right and r what remains there, the glyph of r mod bmag,
or a blank, or the one minus glyph next to the most significant digit; what is left in `NEG` and in `REM`; nothing else
changes. (`REM` after a value of 0 with leading zeros off is the parameter of log 10.) -/
def Obligations.FormatterClosedForm : Prop :=
  ∀ (bmag : Nat) (neg : Bool) (value : Nat) (lz : Bool) (len : Nat) (s : State),
    1 ≤ bmag → 1 ≤ len → len ≤ 4 →
    (∀ j, j < len → readDig (formatNumber bmag neg value lz len s) (len - 1 - j) =
      (if lz = true ∨ bmag ^ j ≤ value ∨ (value = 0 ∧ j = 0) then encodeDigit s.cfg (value / bmag ^ j % bmag)
       else if neg = true ∧ value ≠ 0 ∧ bmag ^ (j - 1) ≤ value then s.cfg.minusGlyph
       else 0x00)) ∧
    (∀ k, len ≤ k → readDig (formatNumber bmag neg value lz len s) k = readDig s k) ∧
    ((formatNumber bmag neg value lz len s).neg = true ↔
      neg = true ∧ (lz = true ∨ value = 0 ∨ bmag ^ (len - 1) ≤ value)) ∧
    (value ≠ 0 ∨ lz = true → (formatNumber bmag neg value lz len s).rem = value / bmag ^ len) ∧
    formatNumber bmag neg value lz len s =
      { s with
        dig := (formatNumber bmag neg value lz len s).dig, neg := (formatNumber bmag neg value lz len s).neg,
        rem := (formatNumber bmag neg value lz len s).rem }

/-- R140 (marked by the spec as derived) (a) to (f), over the formatter itself; (e) for parameters whose minus glyph is no
glyph and not blank. -/
def Obligations.FormatterProperties : Prop :=
  ∀ (bmag : Nat) (neg : Bool) (value : Nat) (len : Nat) (s : State), 1 ≤ bmag → 1 ≤ len → len ≤ 4 →
    (∀ d, 2 ≤ bmag → 1 ≤ d → bmag ^ (d - 1) ≤ value → value < bmag ^ d →
      (d ≤ len →
        (∀ k, k < d → readDig (formatNumber bmag neg value false len s) (len - d + k) =
          encodeDigit s.cfg (value / bmag ^ (d - 1 - k) % bmag)) ∧
        (neg = true → d < len → readDig (formatNumber bmag neg value false len s) (len - d - 1) = s.cfg.minusGlyph) ∧
        (∀ k, k < len - d → (neg = false ∨ k < len - d - 1) →
          readDig (formatNumber bmag neg value false len s) k = 0x00)) ∧
      (len ≤ d → neg = true → (formatNumber bmag neg value false len s).neg = true ∧
        ∀ k, k < len → readDig (formatNumber bmag neg value false len s) k =
          encodeDigit s.cfg (value / bmag ^ (len - 1 - k) % bmag))) ∧
    (∀ k, k < len → readDig (formatNumber bmag neg value true len s) k =
      encodeDigit s.cfg (value / bmag ^ (len - 1 - k) % bmag)) ∧
    (value = 0 → (∀ k, k < len - 1 → readDig (formatNumber bmag neg value false len s) k = 0x00) ∧
      readDig (formatNumber bmag neg value false len s) (len - 1) = encodeDigit s.cfg 0) ∧
    (value = 0 → ∀ k, k < len → readDig (formatNumber bmag neg value true len s) k = encodeDigit s.cfg 0) ∧
    (∀ lz j k, s.cfg.minusGlyph ≠ 0 → (∀ n, encodeDigit s.cfg n ≠ s.cfg.minusGlyph) → j < len → k < len →
      readDig (formatNumber bmag neg value lz len s) j = s.cfg.minusGlyph →
      readDig (formatNumber bmag neg value lz len s) k = s.cfg.minusGlyph → j = k) ∧
    (∀ lz k, bmag ^ len ≤ value → k < len → readDig (formatNumber bmag neg value lz len s) k =
      encodeDigit s.cfg (value % bmag ^ len / bmag ^ (len - 1 - k) % bmag))

/-- R141 (marked by the spec as derived), the unusual bases: with magnitude 1 a value above 0 shows `GLYPH[0]` at every
position, no blank and no minus glyph; a digit of 16 or more shows as its low four bits; base 0 is refused. -/
def Obligations.UnusualBases : Prop :=
  (∀ (neg : Bool) (value : Nat) (lz : Bool) (len : Nat) (s : State), 1 ≤ len → len ≤ 4 → value ≠ 0 →
    ∀ k, k < len → readDig (formatNumber 1 neg value lz len s) k = s.cfg.glyph.getD 0 0) ∧
  (∀ (bmag : Nat) (neg : Bool) (value : Nat) (lz : Bool) (len : Nat) (s : State), 1 ≤ len → len ≤ 4 →
    17 ≤ bmag →
    (∀ k, k < len → value / bmag ^ (len - 1 - k) ≠ 0 → readDig (formatNumber bmag neg value lz len s) k =
      s.cfg.glyph.getD (value / bmag ^ (len - 1 - k) % bmag % 16) 0)) ∧
  (∀ (value : Nat) (dots : Byte) (lz : Bool) (len pos : Byte) (s : State),
    CompletesAs (.showbase 0 value dots lz len pos) s { s with allAck := true, busy := false } ⟨.refused, true, 0⟩)

/-- R133: SHOWBASE stores its format operands, fills the buffer, overlays the dots and sends the frame; or it is refused and
writes nothing. `showEffect` gives the closed form (R131, R132, R130, R111, R114). -/
def Obligations.ShowbaseEffect : Prop :=
  ∀ (base : Int) (value : Nat) (dots : Byte) (lz : Bool) (len pos : Byte) (s : State), s.cfg.wf = true →
    (1 ≤ len.toNat → len.toNat ≤ 4 → base ≠ 0 → s.cfg.ackWait = false →
      CompletesAs (.showbase base value dots lz len pos) s
        (showEffect base value dots lz len.toNat pos
          { s with allAck := true, fmtLen := BitVec.ofNat 3 len.toNat, fmtLz := lz, fmtDots := dots })
        ⟨.ok, allAcked s (3 + len.toNat), 0⟩) ∧
    (len.toNat < 1 ∨ 4 < len.toNat ∨ base = 0 →
      CompletesAs (.showbase base value dots lz len pos) s { s with allAck := true, busy := false } ⟨.refused, true, 0⟩) ∧
    encode (.showbase base value dots lz len pos) =
      0x7000000000000000 ||| (BitVec.ofInt 8 base).setWidth 64 <<< 48 ||| pos.setWidth 64 <<< 40 ||| len.setWidth 64 <<< 32 |||
        bitWord lz <<< 24 ||| dots.setWidth 64 <<< 16 ||| (BitVec.ofNat 16 value).setWidth 64

/-- R134: SHOWDEC is SHOWBASE of the magnitude in base 10, or in base -10 for a negative number, with its response; it
completes for every number when len is in 1..4, and is refused otherwise. The magnitude of a `num` of `VALUE_W` signed bits
fits `VALUE_W` unsigned bits: R134 says so for 16, and at other widths it rests on the model's choice that `num` has `VALUE_W`
bits (log 1). -/
def Obligations.ShowdecEffect : Prop :=
  ∀ (num : Int) (dots : Byte) (lz : Bool) (len pos : Byte) (s : State), s.cfg.wf = true →
    exec (.showdec num dots lz len pos) s =
      (if num < 0 then exec (.showbase (-10) (-num).toNat dots lz len pos) s
       else exec (.showbase 10 num.toNat dots lz len pos) s) ∧
    (1 ≤ len.toNat → len.toNat ≤ 4 → s.cfg.ackWait = false →
      CompletesAs (.showdec num dots lz len pos) s
        (showEffect (if num < 0 then -10 else 10) num.natAbs dots lz
          len.toNat pos { s with allAck := true, fmtLen := BitVec.ofNat 3 len.toNat, fmtLz := lz, fmtDots := dots })
        ⟨.ok, allAcked s (3 + len.toNat), 0⟩) ∧
    (fitsSigned s.cfg.valueW num = true → num.natAbs < 2 ^ s.cfg.valueW) ∧
    encode (.showdec num dots lz len pos) =
      0x8000000000000000 ||| pos.setWidth 64 <<< 40 ||| len.setWidth 64 <<< 32 ||| bitWord lz <<< 24 |||
        dots.setWidth 64 <<< 16 ||| (BitVec.ofInt 16 num).setWidth 64 ∧
    (len.toNat < 1 ∨ 4 < len.toNat →
      CompletesAs (.showdec num dots lz len pos) s { s with allAck := true, busy := false } ⟨.refused, true, 0⟩)

/-- R135: SHOWHEX is SHOWBASE 16 with its response; it completes for every value when len is in 1..4. -/
def Obligations.ShowhexEffect : Prop :=
  ∀ (value : Nat) (dots : Byte) (lz : Bool) (len pos : Byte) (s : State), s.cfg.wf = true →
    exec (.showhex value dots lz len pos) s = exec (.showbase 16 value dots lz len pos) s ∧
    (1 ≤ len.toNat → len.toNat ≤ 4 → s.cfg.ackWait = false →
      CompletesAs (.showhex value dots lz len pos) s
        (showEffect 16 value dots lz len.toNat pos
          { s with allAck := true, fmtLen := BitVec.ofNat 3 len.toNat, fmtLz := lz, fmtDots := dots })
        ⟨.ok, allAcked s (3 + len.toNat), 0⟩) ∧
    encode (.showhex value dots lz len pos) =
      0x9000000000000000 ||| pos.setWidth 64 <<< 40 ||| len.setWidth 64 <<< 32 ||| bitWord lz <<< 24 |||
        dots.setWidth 64 <<< 16 ||| (BitVec.ofNat 16 value).setWidth 64 ∧
    (len.toNat < 1 ∨ 4 < len.toNat →
      CompletesAs (.showhex value dots lz len pos) s { s with allAck := true, busy := false } ⟨.refused, true, 0⟩)

/-- R136: SHOWBASE.D runs with the stored format and writes none of its three fields; base 0 is refused. -/
def Obligations.ShowbaseStoredEffect : Prop :=
  ∀ (base : Int) (value : Nat) (pos : Byte) (s : State),
    (base ≠ 0 → s.cfg.ackWait = false → 1 ≤ s.fmtLen.toNat → s.fmtLen.toNat ≤ 4 →
      CompletesAs (.showbaseD base value pos) s
        (showEffect base value s.fmtDots s.fmtLz s.fmtLen.toNat pos { s with allAck := true })
        ⟨.ok, allAcked s (3 + s.fmtLen.toNat), 0⟩) ∧
    (base = 0 → CompletesAs (.showbaseD base value pos) s { s with allAck := true, busy := false } ⟨.refused, true, 0⟩) ∧
    encode (.showbaseD base value pos) =
      0xA000000000000000 ||| (BitVec.ofInt 8 base).setWidth 64 <<< 48 ||| pos.setWidth 64 <<< 40 ||| (BitVec.ofNat 16 value).setWidth 64

/-- R137: SHOWDEC.D is SHOWBASE.D of the magnitude in base 10 or -10, with its response; never refused. -/
def Obligations.ShowdecStoredEffect : Prop :=
  ∀ (num : Int) (pos : Byte) (s : State),
    exec (.showdecD num pos) s =
      (if num < 0 then exec (.showbaseD (-10) (-num).toNat pos) s
       else exec (.showbaseD 10 num.toNat pos) s) ∧
    (s.cfg.ackWait = false → 1 ≤ s.fmtLen.toNat → s.fmtLen.toNat ≤ 4 →
      CompletesAs (.showdecD num pos) s
        (showEffect (if num < 0 then -10 else 10) num.natAbs s.fmtDots
          s.fmtLz s.fmtLen.toNat pos { s with allAck := true })
        ⟨.ok, allAcked s (3 + s.fmtLen.toNat), 0⟩) ∧
    encode (.showdecD num pos) = 0xB000000000000000 ||| pos.setWidth 64 <<< 40 ||| (BitVec.ofInt 16 num).setWidth 64

/-- R138: SHOWHEX.D is SHOWBASE.D 16 with its response; never refused. -/
def Obligations.ShowhexStoredEffect : Prop :=
  ∀ (value : Nat) (pos : Byte) (s : State),
    exec (.showhexD value pos) s = exec (.showbaseD 16 value pos) s ∧
    (s.cfg.ackWait = false → 1 ≤ s.fmtLen.toNat → s.fmtLen.toNat ≤ 4 →
      CompletesAs (.showhexD value pos) s
        (showEffect 16 value s.fmtDots s.fmtLz s.fmtLen.toNat pos { s with allAck := true })
        ⟨.ok, allAcked s (3 + s.fmtLen.toNat), 0⟩) ∧
    encode (.showhexD value pos) = 0xC000000000000000 ||| pos.setWidth 64 <<< 40 ||| (BitVec.ofNat 16 value).setWidth 64

/-! ## Whole-machine rules -/

/-- R86: a command is REFUSED exactly when its len is outside 1..4 or its base is 0, and a refused command changes no
register but `ALL_ACK` (and `BUSY`, `UPC`), moves no pin and records nothing. Holds for both values of `ACK_WAIT`. -/
def Obligations.RefusedExactlyOutsideTheDomain : Prop :=
  ∀ (i : Instr) (s : State), s.cfg.wf = true →
    (i.wf s.cfg = false → CompletesAs i s { s with allAck := true, busy := false } ⟨.refused, true, 0⟩) ∧
    (i.wf s.cfg = true → ∃ t, exec i s = .next t ∧ ∀ r, t.rsp = some r → r.status = .ok)

/-- R83: the response record. Status OK for every performed command; `ack` is the AND over the bytes it wrote, 1 when it
wrote none; `data` is the glyph for ENCODE and 0 for every other command; refused and illegal ones answer (status, 1, 0). -/
def Obligations.ResponseRecord : Prop :=
  (∀ (i : Instr) (s : State), s.cfg.wf = true → i.WellFormed s.cfg → s.cfg.ackWait = false →
    ∃ t, exec i s = .next t ∧
      t.rsp = some ⟨.ok, allAcked s (bytesWritten i s),
        match i with
        | .encode d => encodeDigit s.cfg d.toNat
        | _ => 0⟩ ∧
      t.allAck = allAcked s (bytesWritten i s)) ∧
  (∀ (i : Instr) (s : State), i.wf s.cfg = false → ∃ t, exec i s = .next t ∧ t.rsp = some ⟨.refused, true, 0⟩) ∧
  (∀ s : State, (illegal s).rsp = some ⟨.illegal, true, 0⟩) ∧
  (statusCode .ok = 0 ∧ statusCode .illegal = 1 ∧ statusCode .refused = 2 ∧ ∀ st, statusCode st ≠ 3)

/-- The "written by" column of R10: only SETBRT writes `BRIGHT`, only SETFMT and the explicit SHOW forms write the format,
only SETSEG and the SHOW commands write `DIG`, and only below len (R17), only the SHOW commands write the working
registers; START never writes `CLK_OE`; no command writes the parameters or the words still to come. Both values of
`ACK_WAIT`; `FMT_LEN` not 0 is part of the invariant of R14. -/
def Obligations.RegisterWriters : Prop :=
  ∀ (i : Instr) (s t : State), s.cfg.wf = true → 1 ≤ s.fmtLen.toNat → exec i s = .next t →
    ((∀ level on, i ≠ .setbrt level on) → t.bright = s.bright) ∧
    (storesFormat i = false → t.fmtLen = s.fmtLen ∧ t.fmtLz = s.fmtLz ∧ t.fmtDots = s.fmtDots) ∧
    (frameOf i s = none → t.dig = s.dig) ∧
    (∀ len pos k, frameOf i s = some (len, pos) → len ≤ k → readDig t k = readDig s k) ∧
    (formats i = false → t.rem = s.rem ∧ t.baseMag = s.baseMag ∧ t.neg = s.neg ∧ t.msk = s.msk) ∧
    (i = .start → t.clkOe = s.clkOe) ∧
    (bytesWritten i s = 0 → t.lastAck = s.lastAck ∧ t.answers = s.answers) ∧
    t.cfg = s.cfg ∧ t.cmdQueue = s.cmdQueue ∧ t.resetIn = s.resetIn ∧ t.resetNo = s.resetNo

/-- R25 and R26: the trace only grows, and `UPC` at the end of a command is the number of its micro-steps: its events and
the response (that `respond` counts is the model's reading, log 6). -/
def Obligations.MicroStepCount : Prop :=
  ∀ (i : Instr) (s : State),
    ∃ t es, exec i s = .next t ∧ t.tr = s.tr ++ es ∧ t.upc = es.length + (if t.busy then 0 else 1)

/-- R25, D24: a whole command in one step is what its micro-steps do one after the other, for every micro-step
list, from every state, with the block busy; under `ACK_WAIT` up to the point where it waits. -/
def Obligations.MicroStepsMakeTheBigStep : Prop :=
  ∀ (ops : List MicroOp) (s : State), s.busy = true → ∃ n, microRun n (launch ops s) = perform ops s

/-- What every step keeps (`Inv`): parameters as R5 and R66 require, `FMT_LEN` in 1..4 (R14), `REM` and `BASE_MAG` in their
widths (R18, R131), no work left when not busy, and a busy block waiting at a sample with the data pin released (R43, R98).
The model's choices in it: the least widths in `Config.wf` and the bound 2^(`BASE_W`-1) of `BASE_MAG` at other widths than
R5's (log 1), and that a block busy between two steps stands at a sample (log 7). -/
def Obligations.StepKeepsTheInvariant : Prop :=
  ∀ s t : State, Inv s → step s = .next t → Inv t

/-- The invariant holds right after reset. -/
def Obligations.ResetMeetsTheInvariant : Prop := Inv State.reset

/-! ## Reset -/

/-- R29: every register after reset. `BRIGHT` is open: a draw of which nothing is known (log 3). -/
def Obligations.ResetValues : Prop :=
  State.reset.clkOe = false ∧ State.reset.dioOe = false ∧ State.reset.bright = Config.freeBright 0 ∧
  State.reset.fmtLen = 4 ∧ State.reset.fmtLz = false ∧ State.reset.fmtDots = 0x00 ∧
  State.reset.dig = #v[0x00, 0x00, 0x00, 0x00] ∧ State.reset.rem = 0 ∧ State.reset.baseMag = 0 ∧
  State.reset.neg = false ∧ State.reset.msk = 0 ∧ State.reset.lastAck = true ∧ State.reset.allAck = true ∧
  State.reset.busy = false ∧ State.reset.upc = 0 ∧ State.reset.tr = []

/-- R171: reset after any number of micro-steps of any command stops it, releases both pins, gives no response, and puts
every register at its reset value, `BRIGHT` at a draw (treatment (a) of R170, log 3). That the words still to come stay on the
command port, and that the next step takes one, is the model's choice (log 9). -/
def Obligations.ResetDuringACommand : Prop :=
  ∀ (ops : List MicroOp) (s : State) (n : Nat),
    ∃ t, step { microRun n (launch ops s) with resetIn := true } = .next t ∧
      t.regs = ⟨false, false, Config.freeBright s.resetNo, s.cfg.fmtLenReset, s.cfg.fmtLzReset, s.cfg.fmtDotsReset,
        #v[0x00, 0x00, 0x00, 0x00], 0, 0, false, 0, true, true, false, []⟩ ∧
      t.upc = 0 ∧ t.rsp = none ∧ t.todo = [] ∧ t.cmdQueue = s.cmdQueue ∧ t.cfg = s.cfg ∧ ready t = true
end

