-- ==== Sys2Proof/Laws/State.lean ====
section
/-! SUPPORT. One lemma per field per update of State, so that no proof unfolds a record update. -/

namespace Sys2Proof.Machine

/-! ## `emit`: one micro-step -/

@[simp] theorem emit_clkOe (e : Event) (s : State) : (emit e s).clkOe = s.clkOe := rfl
@[simp] theorem emit_dioOe (e : Event) (s : State) : (emit e s).dioOe = s.dioOe := rfl
@[simp] theorem emit_bright (e : Event) (s : State) : (emit e s).bright = s.bright := rfl
@[simp] theorem emit_fmtLen (e : Event) (s : State) : (emit e s).fmtLen = s.fmtLen := rfl
@[simp] theorem emit_fmtLz (e : Event) (s : State) : (emit e s).fmtLz = s.fmtLz := rfl
@[simp] theorem emit_fmtDots (e : Event) (s : State) : (emit e s).fmtDots = s.fmtDots := rfl
@[simp] theorem emit_dig (e : Event) (s : State) : (emit e s).dig = s.dig := rfl
@[simp] theorem emit_rem (e : Event) (s : State) : (emit e s).rem = s.rem := rfl
@[simp] theorem emit_baseMag (e : Event) (s : State) : (emit e s).baseMag = s.baseMag := rfl
@[simp] theorem emit_neg (e : Event) (s : State) : (emit e s).neg = s.neg := rfl
@[simp] theorem emit_msk (e : Event) (s : State) : (emit e s).msk = s.msk := rfl
@[simp] theorem emit_lastAck (e : Event) (s : State) : (emit e s).lastAck = s.lastAck := rfl
@[simp] theorem emit_allAck (e : Event) (s : State) : (emit e s).allAck = s.allAck := rfl
@[simp] theorem emit_busy (e : Event) (s : State) : (emit e s).busy = s.busy := rfl
@[simp] theorem emit_upc (e : Event) (s : State) : (emit e s).upc = s.upc + 1 := rfl
@[simp] theorem emit_tr (e : Event) (s : State) : (emit e s).tr = s.tr ++ [e] := rfl
@[simp] theorem emit_rsp (e : Event) (s : State) : (emit e s).rsp = s.rsp := rfl
@[simp] theorem emit_todo (e : Event) (s : State) : (emit e s).todo = s.todo := rfl
@[simp] theorem emit_smp (e : Event) (s : State) : (emit e s).smp = s.smp := rfl
@[simp] theorem emit_cmdQueue (e : Event) (s : State) : (emit e s).cmdQueue = s.cmdQueue := rfl
@[simp] theorem emit_resetIn (e : Event) (s : State) : (emit e s).resetIn = s.resetIn := rfl
@[simp] theorem emit_answers (e : Event) (s : State) : (emit e s).answers = s.answers := rfl
@[simp] theorem emit_sampleNo (e : Event) (s : State) : (emit e s).sampleNo = s.sampleNo := rfl
@[simp] theorem emit_resetNo (e : Event) (s : State) : (emit e s).resetNo = s.resetNo := rfl
@[simp] theorem emit_cfg (e : Event) (s : State) : (emit e s).cfg = s.cfg := rfl

/-! ## `takeAnswers`: answers taken -/

@[simp] theorem takeAnswers_clkOe (k : Nat) (s : State) : (takeAnswers k s).clkOe = s.clkOe := rfl
@[simp] theorem takeAnswers_dioOe (k : Nat) (s : State) : (takeAnswers k s).dioOe = s.dioOe := rfl
@[simp] theorem takeAnswers_bright (k : Nat) (s : State) : (takeAnswers k s).bright = s.bright := rfl
@[simp] theorem takeAnswers_fmtLen (k : Nat) (s : State) : (takeAnswers k s).fmtLen = s.fmtLen := rfl
@[simp] theorem takeAnswers_fmtLz (k : Nat) (s : State) : (takeAnswers k s).fmtLz = s.fmtLz := rfl
@[simp] theorem takeAnswers_fmtDots (k : Nat) (s : State) : (takeAnswers k s).fmtDots = s.fmtDots := rfl
@[simp] theorem takeAnswers_dig (k : Nat) (s : State) : (takeAnswers k s).dig = s.dig := rfl
@[simp] theorem takeAnswers_rem (k : Nat) (s : State) : (takeAnswers k s).rem = s.rem := rfl
@[simp] theorem takeAnswers_baseMag (k : Nat) (s : State) : (takeAnswers k s).baseMag = s.baseMag := rfl
@[simp] theorem takeAnswers_neg (k : Nat) (s : State) : (takeAnswers k s).neg = s.neg := rfl
@[simp] theorem takeAnswers_msk (k : Nat) (s : State) : (takeAnswers k s).msk = s.msk := rfl
@[simp] theorem takeAnswers_lastAck (k : Nat) (s : State) : (takeAnswers k s).lastAck = s.lastAck := rfl
@[simp] theorem takeAnswers_allAck (k : Nat) (s : State) : (takeAnswers k s).allAck = s.allAck := rfl
@[simp] theorem takeAnswers_busy (k : Nat) (s : State) : (takeAnswers k s).busy = s.busy := rfl
@[simp] theorem takeAnswers_upc (k : Nat) (s : State) : (takeAnswers k s).upc = s.upc := rfl
@[simp] theorem takeAnswers_tr (k : Nat) (s : State) : (takeAnswers k s).tr = s.tr := rfl
@[simp] theorem takeAnswers_rsp (k : Nat) (s : State) : (takeAnswers k s).rsp = s.rsp := rfl
@[simp] theorem takeAnswers_todo (k : Nat) (s : State) : (takeAnswers k s).todo = s.todo := rfl
@[simp] theorem takeAnswers_smp (k : Nat) (s : State) : (takeAnswers k s).smp = s.smp := rfl
@[simp] theorem takeAnswers_cmdQueue (k : Nat) (s : State) : (takeAnswers k s).cmdQueue = s.cmdQueue := rfl
@[simp] theorem takeAnswers_resetIn (k : Nat) (s : State) : (takeAnswers k s).resetIn = s.resetIn := rfl
@[simp] theorem takeAnswers_answers (k : Nat) (s : State) : (takeAnswers k s).answers = s.answers.drop k := rfl
@[simp] theorem takeAnswers_sampleNo (k : Nat) (s : State) : (takeAnswers k s).sampleNo = s.sampleNo + k := rfl
@[simp] theorem takeAnswers_resetNo (k : Nat) (s : State) : (takeAnswers k s).resetNo = s.resetNo := rfl
@[simp] theorem takeAnswers_cfg (k : Nat) (s : State) : (takeAnswers k s).cfg = s.cfg := rfl

/-! ## `foldAck`: acknowledgement flags folded -/

@[simp] theorem foldAck_clkOe (s : State) : (foldAck s).clkOe = s.clkOe := rfl
@[simp] theorem foldAck_dioOe (s : State) : (foldAck s).dioOe = s.dioOe := rfl
@[simp] theorem foldAck_bright (s : State) : (foldAck s).bright = s.bright := rfl
@[simp] theorem foldAck_fmtLen (s : State) : (foldAck s).fmtLen = s.fmtLen := rfl
@[simp] theorem foldAck_fmtLz (s : State) : (foldAck s).fmtLz = s.fmtLz := rfl
@[simp] theorem foldAck_fmtDots (s : State) : (foldAck s).fmtDots = s.fmtDots := rfl
@[simp] theorem foldAck_dig (s : State) : (foldAck s).dig = s.dig := rfl
@[simp] theorem foldAck_rem (s : State) : (foldAck s).rem = s.rem := rfl
@[simp] theorem foldAck_baseMag (s : State) : (foldAck s).baseMag = s.baseMag := rfl
@[simp] theorem foldAck_neg (s : State) : (foldAck s).neg = s.neg := rfl
@[simp] theorem foldAck_msk (s : State) : (foldAck s).msk = s.msk := rfl
@[simp] theorem foldAck_lastAck (s : State) : (foldAck s).lastAck = ackedOf s.smp := rfl
@[simp] theorem foldAck_allAck (s : State) : (foldAck s).allAck = (s.allAck && ackedOf s.smp) := rfl
@[simp] theorem foldAck_busy (s : State) : (foldAck s).busy = s.busy := rfl
@[simp] theorem foldAck_upc (s : State) : (foldAck s).upc = s.upc := rfl
@[simp] theorem foldAck_tr (s : State) : (foldAck s).tr = s.tr := rfl
@[simp] theorem foldAck_rsp (s : State) : (foldAck s).rsp = s.rsp := rfl
@[simp] theorem foldAck_todo (s : State) : (foldAck s).todo = s.todo := rfl
@[simp] theorem foldAck_smp (s : State) : (foldAck s).smp = s.smp := rfl
@[simp] theorem foldAck_cmdQueue (s : State) : (foldAck s).cmdQueue = s.cmdQueue := rfl
@[simp] theorem foldAck_resetIn (s : State) : (foldAck s).resetIn = s.resetIn := rfl
@[simp] theorem foldAck_answers (s : State) : (foldAck s).answers = s.answers := rfl
@[simp] theorem foldAck_sampleNo (s : State) : (foldAck s).sampleNo = s.sampleNo := rfl
@[simp] theorem foldAck_resetNo (s : State) : (foldAck s).resetNo = s.resetNo := rfl
@[simp] theorem foldAck_cfg (s : State) : (foldAck s).cfg = s.cfg := rfl

/-! ## `accept`: a command accepted -/

@[simp] theorem accept_clkOe (s : State) : (accept s).clkOe = s.clkOe := rfl
@[simp] theorem accept_dioOe (s : State) : (accept s).dioOe = s.dioOe := rfl
@[simp] theorem accept_bright (s : State) : (accept s).bright = s.bright := rfl
@[simp] theorem accept_fmtLen (s : State) : (accept s).fmtLen = s.fmtLen := rfl
@[simp] theorem accept_fmtLz (s : State) : (accept s).fmtLz = s.fmtLz := rfl
@[simp] theorem accept_fmtDots (s : State) : (accept s).fmtDots = s.fmtDots := rfl
@[simp] theorem accept_dig (s : State) : (accept s).dig = s.dig := rfl
@[simp] theorem accept_rem (s : State) : (accept s).rem = s.rem := rfl
@[simp] theorem accept_baseMag (s : State) : (accept s).baseMag = s.baseMag := rfl
@[simp] theorem accept_neg (s : State) : (accept s).neg = s.neg := rfl
@[simp] theorem accept_msk (s : State) : (accept s).msk = s.msk := rfl
@[simp] theorem accept_lastAck (s : State) : (accept s).lastAck = s.lastAck := rfl
@[simp] theorem accept_allAck (s : State) : (accept s).allAck = true := rfl
@[simp] theorem accept_busy (s : State) : (accept s).busy = true := rfl
@[simp] theorem accept_upc (s : State) : (accept s).upc = 0 := rfl
@[simp] theorem accept_tr (s : State) : (accept s).tr = s.tr := rfl
@[simp] theorem accept_rsp (s : State) : (accept s).rsp = none := rfl
@[simp] theorem accept_todo (s : State) : (accept s).todo = [] := rfl
@[simp] theorem accept_smp (s : State) : (accept s).smp = s.smp := rfl
@[simp] theorem accept_cmdQueue (s : State) : (accept s).cmdQueue = s.cmdQueue := rfl
@[simp] theorem accept_resetIn (s : State) : (accept s).resetIn = s.resetIn := rfl
@[simp] theorem accept_answers (s : State) : (accept s).answers = s.answers := rfl
@[simp] theorem accept_sampleNo (s : State) : (accept s).sampleNo = s.sampleNo := rfl
@[simp] theorem accept_resetNo (s : State) : (accept s).resetNo = s.resetNo := rfl
@[simp] theorem accept_cfg (s : State) : (accept s).cfg = s.cfg := rfl

/-! ## `respond`: a command answered -/

@[simp] theorem respond_clkOe (st : Status) (d : Byte) (s : State) : (respond st d s).clkOe = s.clkOe := rfl
@[simp] theorem respond_dioOe (st : Status) (d : Byte) (s : State) : (respond st d s).dioOe = s.dioOe := rfl
@[simp] theorem respond_bright (st : Status) (d : Byte) (s : State) : (respond st d s).bright = s.bright := rfl
@[simp] theorem respond_fmtLen (st : Status) (d : Byte) (s : State) : (respond st d s).fmtLen = s.fmtLen := rfl
@[simp] theorem respond_fmtLz (st : Status) (d : Byte) (s : State) : (respond st d s).fmtLz = s.fmtLz := rfl
@[simp] theorem respond_fmtDots (st : Status) (d : Byte) (s : State) : (respond st d s).fmtDots = s.fmtDots := rfl
@[simp] theorem respond_dig (st : Status) (d : Byte) (s : State) : (respond st d s).dig = s.dig := rfl
@[simp] theorem respond_rem (st : Status) (d : Byte) (s : State) : (respond st d s).rem = s.rem := rfl
@[simp] theorem respond_baseMag (st : Status) (d : Byte) (s : State) : (respond st d s).baseMag = s.baseMag := rfl
@[simp] theorem respond_neg (st : Status) (d : Byte) (s : State) : (respond st d s).neg = s.neg := rfl
@[simp] theorem respond_msk (st : Status) (d : Byte) (s : State) : (respond st d s).msk = s.msk := rfl
@[simp] theorem respond_lastAck (st : Status) (d : Byte) (s : State) : (respond st d s).lastAck = s.lastAck := rfl
@[simp] theorem respond_allAck (st : Status) (d : Byte) (s : State) : (respond st d s).allAck = s.allAck := rfl
@[simp] theorem respond_busy (st : Status) (d : Byte) (s : State) : (respond st d s).busy = false := rfl
@[simp] theorem respond_upc (st : Status) (d : Byte) (s : State) : (respond st d s).upc = s.upc + 1 := rfl
@[simp] theorem respond_tr (st : Status) (d : Byte) (s : State) : (respond st d s).tr = s.tr := rfl
@[simp] theorem respond_rsp (st : Status) (d : Byte) (s : State) : (respond st d s).rsp = some ⟨st, s.allAck, d⟩ := rfl
@[simp] theorem respond_todo (st : Status) (d : Byte) (s : State) : (respond st d s).todo = s.todo := rfl
@[simp] theorem respond_smp (st : Status) (d : Byte) (s : State) : (respond st d s).smp = s.smp := rfl
@[simp] theorem respond_cmdQueue (st : Status) (d : Byte) (s : State) : (respond st d s).cmdQueue = s.cmdQueue := rfl
@[simp] theorem respond_resetIn (st : Status) (d : Byte) (s : State) : (respond st d s).resetIn = s.resetIn := rfl
@[simp] theorem respond_answers (st : Status) (d : Byte) (s : State) : (respond st d s).answers = s.answers := rfl
@[simp] theorem respond_sampleNo (st : Status) (d : Byte) (s : State) : (respond st d s).sampleNo = s.sampleNo := rfl
@[simp] theorem respond_resetNo (st : Status) (d : Byte) (s : State) : (respond st d s).resetNo = s.resetNo := rfl
@[simp] theorem respond_cfg (st : Status) (d : Byte) (s : State) : (respond st d s).cfg = s.cfg := rfl

/-! ## `writeDig`: a digit register written -/

@[simp] theorem writeDig_clkOe (i : Nat) (v : Byte) (s : State) : (writeDig i v s).clkOe = s.clkOe := rfl
@[simp] theorem writeDig_dioOe (i : Nat) (v : Byte) (s : State) : (writeDig i v s).dioOe = s.dioOe := rfl
@[simp] theorem writeDig_bright (i : Nat) (v : Byte) (s : State) : (writeDig i v s).bright = s.bright := rfl
@[simp] theorem writeDig_fmtLen (i : Nat) (v : Byte) (s : State) : (writeDig i v s).fmtLen = s.fmtLen := rfl
@[simp] theorem writeDig_fmtLz (i : Nat) (v : Byte) (s : State) : (writeDig i v s).fmtLz = s.fmtLz := rfl
@[simp] theorem writeDig_fmtDots (i : Nat) (v : Byte) (s : State) : (writeDig i v s).fmtDots = s.fmtDots := rfl
@[simp] theorem writeDig_dig (i : Nat) (v : Byte) (s : State) : (writeDig i v s).dig = s.dig.setIfInBounds i v := rfl
@[simp] theorem writeDig_rem (i : Nat) (v : Byte) (s : State) : (writeDig i v s).rem = s.rem := rfl
@[simp] theorem writeDig_baseMag (i : Nat) (v : Byte) (s : State) : (writeDig i v s).baseMag = s.baseMag := rfl
@[simp] theorem writeDig_neg (i : Nat) (v : Byte) (s : State) : (writeDig i v s).neg = s.neg := rfl
@[simp] theorem writeDig_msk (i : Nat) (v : Byte) (s : State) : (writeDig i v s).msk = s.msk := rfl
@[simp] theorem writeDig_lastAck (i : Nat) (v : Byte) (s : State) : (writeDig i v s).lastAck = s.lastAck := rfl
@[simp] theorem writeDig_allAck (i : Nat) (v : Byte) (s : State) : (writeDig i v s).allAck = s.allAck := rfl
@[simp] theorem writeDig_busy (i : Nat) (v : Byte) (s : State) : (writeDig i v s).busy = s.busy := rfl
@[simp] theorem writeDig_upc (i : Nat) (v : Byte) (s : State) : (writeDig i v s).upc = s.upc := rfl
@[simp] theorem writeDig_tr (i : Nat) (v : Byte) (s : State) : (writeDig i v s).tr = s.tr := rfl
@[simp] theorem writeDig_rsp (i : Nat) (v : Byte) (s : State) : (writeDig i v s).rsp = s.rsp := rfl
@[simp] theorem writeDig_todo (i : Nat) (v : Byte) (s : State) : (writeDig i v s).todo = s.todo := rfl
@[simp] theorem writeDig_smp (i : Nat) (v : Byte) (s : State) : (writeDig i v s).smp = s.smp := rfl
@[simp] theorem writeDig_cmdQueue (i : Nat) (v : Byte) (s : State) : (writeDig i v s).cmdQueue = s.cmdQueue := rfl
@[simp] theorem writeDig_resetIn (i : Nat) (v : Byte) (s : State) : (writeDig i v s).resetIn = s.resetIn := rfl
@[simp] theorem writeDig_answers (i : Nat) (v : Byte) (s : State) : (writeDig i v s).answers = s.answers := rfl
@[simp] theorem writeDig_sampleNo (i : Nat) (v : Byte) (s : State) : (writeDig i v s).sampleNo = s.sampleNo := rfl
@[simp] theorem writeDig_resetNo (i : Nat) (v : Byte) (s : State) : (writeDig i v s).resetNo = s.resetNo := rfl
@[simp] theorem writeDig_cfg (i : Nat) (v : Byte) (s : State) : (writeDig i v s).cfg = s.cfg := rfl

/-! ## `writeFormat`: the format fields written -/

@[simp] theorem writeFormat_clkOe (l : Byte) (z : Bool) (d : Byte) (s : State) : (writeFormat l z d s).clkOe = s.clkOe := rfl
@[simp] theorem writeFormat_dioOe (l : Byte) (z : Bool) (d : Byte) (s : State) : (writeFormat l z d s).dioOe = s.dioOe := rfl
@[simp] theorem writeFormat_bright (l : Byte) (z : Bool) (d : Byte) (s : State) : (writeFormat l z d s).bright = s.bright := rfl
@[simp] theorem writeFormat_fmtLen (l : Byte) (z : Bool) (d : Byte) (s : State) : (writeFormat l z d s).fmtLen = l.setWidth 3 := rfl
@[simp] theorem writeFormat_fmtLz (l : Byte) (z : Bool) (d : Byte) (s : State) : (writeFormat l z d s).fmtLz = z := rfl
@[simp] theorem writeFormat_fmtDots (l : Byte) (z : Bool) (d : Byte) (s : State) : (writeFormat l z d s).fmtDots = d := rfl
@[simp] theorem writeFormat_dig (l : Byte) (z : Bool) (d : Byte) (s : State) : (writeFormat l z d s).dig = s.dig := rfl
@[simp] theorem writeFormat_rem (l : Byte) (z : Bool) (d : Byte) (s : State) : (writeFormat l z d s).rem = s.rem := rfl
@[simp] theorem writeFormat_baseMag (l : Byte) (z : Bool) (d : Byte) (s : State) : (writeFormat l z d s).baseMag = s.baseMag := rfl
@[simp] theorem writeFormat_neg (l : Byte) (z : Bool) (d : Byte) (s : State) : (writeFormat l z d s).neg = s.neg := rfl
@[simp] theorem writeFormat_msk (l : Byte) (z : Bool) (d : Byte) (s : State) : (writeFormat l z d s).msk = s.msk := rfl
@[simp] theorem writeFormat_lastAck (l : Byte) (z : Bool) (d : Byte) (s : State) : (writeFormat l z d s).lastAck = s.lastAck := rfl
@[simp] theorem writeFormat_allAck (l : Byte) (z : Bool) (d : Byte) (s : State) : (writeFormat l z d s).allAck = s.allAck := rfl
@[simp] theorem writeFormat_busy (l : Byte) (z : Bool) (d : Byte) (s : State) : (writeFormat l z d s).busy = s.busy := rfl
@[simp] theorem writeFormat_upc (l : Byte) (z : Bool) (d : Byte) (s : State) : (writeFormat l z d s).upc = s.upc := rfl
@[simp] theorem writeFormat_tr (l : Byte) (z : Bool) (d : Byte) (s : State) : (writeFormat l z d s).tr = s.tr := rfl
@[simp] theorem writeFormat_rsp (l : Byte) (z : Bool) (d : Byte) (s : State) : (writeFormat l z d s).rsp = s.rsp := rfl
@[simp] theorem writeFormat_todo (l : Byte) (z : Bool) (d : Byte) (s : State) : (writeFormat l z d s).todo = s.todo := rfl
@[simp] theorem writeFormat_smp (l : Byte) (z : Bool) (d : Byte) (s : State) : (writeFormat l z d s).smp = s.smp := rfl
@[simp] theorem writeFormat_cmdQueue (l : Byte) (z : Bool) (d : Byte) (s : State) : (writeFormat l z d s).cmdQueue = s.cmdQueue := rfl
@[simp] theorem writeFormat_resetIn (l : Byte) (z : Bool) (d : Byte) (s : State) : (writeFormat l z d s).resetIn = s.resetIn := rfl
@[simp] theorem writeFormat_answers (l : Byte) (z : Bool) (d : Byte) (s : State) : (writeFormat l z d s).answers = s.answers := rfl
@[simp] theorem writeFormat_sampleNo (l : Byte) (z : Bool) (d : Byte) (s : State) : (writeFormat l z d s).sampleNo = s.sampleNo := rfl
@[simp] theorem writeFormat_resetNo (l : Byte) (z : Bool) (d : Byte) (s : State) : (writeFormat l z d s).resetNo = s.resetNo := rfl
@[simp] theorem writeFormat_cfg (l : Byte) (z : Bool) (d : Byte) (s : State) : (writeFormat l z d s).cfg = s.cfg := rfl

end Sys2Proof.Machine
end

