-- ==== Sys2Proof/Laws/Sequencer.lean ====
section
/-! SUPPORT. The oracle, the micro-step list performed without the wait loop, and the closed forms of the Transport
procedures and of the frame: one lemma per shared operation. -/

namespace Sys2Proof.Machine

/-! ## The oracle -/

theorem answerAt_takeAnswers (s : State) (k j : Nat) : answerAt (takeAnswers k s) j = answerAt s (k + j) := by
  simp [answerAt, takeAnswers, List.getD_eq_getElem?_getD, List.getElem?_drop, Nat.add_assoc]

theorem takeAnswers_takeAnswers (s : State) (k j : Nat) : takeAnswers j (takeAnswers k s) = takeAnswers (k + j) s := by
  simp [takeAnswers, Nat.add_assoc]

theorem answerAt_congr {s t : State} (ha : s.answers = t.answers) (hn : s.sampleNo = t.sampleNo) (k : Nat) :
    answerAt s k = answerAt t k := by simp [answerAt, ha, hn]

theorem nextAnswers_congr {s t : State} (ha : s.answers = t.answers) (hn : s.sampleNo = t.sampleNo) (n : Nat) :
    nextAnswers s n = nextAnswers t n := by simp [nextAnswers, answerAt_congr ha hn]

@[simp] theorem nextAnswers_length (s : State) (n : Nat) : (nextAnswers s n).length = n := by simp [nextAnswers]

theorem nextAnswers_add (s : State) (m n : Nat) :
    nextAnswers s (m + n) = nextAnswers s m ++ nextAnswers (takeAnswers m s) n := by
  simp [nextAnswers, List.range_add, answerAt_takeAnswers, Function.comp_def]

theorem nextAnswers_one (s : State) : nextAnswers s 1 = [answerAt s 0] := by simp [nextAnswers]

theorem nextAnswers_succ (s : State) (n : Nat) :
    nextAnswers s (n + 1) = answerAt s 0 :: nextAnswers (takeAnswers 1 s) n := by
  rw [Nat.add_comm, nextAnswers_add, nextAnswers_one]; rfl

/-! ## The micro-step list without the wait loop -/

/-- The entries of a list performed one after the other, with no response at the end. -/
def performAll (ops : List MicroOp) (s : State) : State := ops.foldl (fun s op => doOp op s) s

theorem performAll_append (xs ys : List MicroOp) (s : State) :
    performAll (xs ++ ys) s = performAll ys (performAll xs s) := by simp [performAll, List.foldl_append]

theorem performAll_cons (op : MicroOp) (ops : List MicroOp) (s : State) :
    performAll (op :: ops) s = performAll ops (doOp op s) := rfl

/-- The acknowledged half of the slot, as R94 writes it. -/
theorem holdIfAcked_eq (s : State) : holdIfAcked s = if s.smp then s else pin .dio .drive s := by
  cases s
  simp only [holdIfAcked, pin, pinEvent, Drive.oe, emit]
  split <;> simp_all

theorem pin_cfg (l : Line) (d : Drive) (s : State) : (pin l d s).cfg = s.cfg := by
  cases l <;> cases d <;> rfl

theorem doOp_cfg (op : MicroOp) (s : State) : (doOp op s).cfg = s.cfg := by
  cases op with
  | pin l d => exact pin_cfg l d s
  | delay => rfl
  | sample => simp only [doOp, sampleDio]; split <;> rfl
  | holdIfAcked => rfl
  | foldAck => rfl

theorem performAll_cfg (ops : List MicroOp) (s : State) : (performAll ops s).cfg = s.cfg := by
  induction ops generalizing s with
  | nil => rfl
  | cons op ops ih => rw [performAll_cons, ih, doOp_cfg]

theorem waits_false {s : State} (h : s.cfg.ackWait = false) (op : MicroOp) : waits op s = false := by
  cases op <;> simp [waits, h]

/-- With `ACK_WAIT` false a command is performed to its response (R163). -/
theorem perform_eq {s : State} (h : s.cfg.ackWait = false) (ops : List MicroOp) :
    perform ops s = respond .ok 0 { performAll ops s with todo := [] } := by
  induction ops generalizing s with
  | nil => rfl
  | cons op ops ih =>
    have h' : (doOp op s).cfg.ackWait = false := by rw [doOp_cfg]; exact h
    simp only [perform, waits_false h']
    exact ih h'

/-! ## Transport procedures -/

theorem performAll_start (s : State) :
    performAll startOps s = { s with dioOe := true, upc := s.upc + 2, tr := s.tr ++ startEvents } := by
  simp [performAll, startOps, doOp, pin, pinEvent, Drive.oe, delay, emit, startEvents]

theorem performAll_stop (s : State) :
    performAll stopOps s =
      { s with clkOe := false, dioOe := false, upc := s.upc + 6, tr := s.tr ++ stopEvents } := by
  simp [performAll, stopOps, doOp, pin, pinEvent, Drive.oe, delay, emit, stopEvents]

theorem performAll_bitSlot (v : Bool) (s : State) :
    performAll (bitSlotOps v) s =
      { s with clkOe := false, dioOe := !v, upc := s.upc + 6, tr := s.tr ++ bitSlotEvents v } := by
  cases v <;> simp [performAll, bitSlotOps, doOp, pin, pinEvent, Drive.oe, delay, emit, bitSlotEvents]

theorem performAll_ackSlot (s : State) :
    performAll (ackSlotOps ++ [.foldAck]) s =
      { s with
        clkOe := true, dioOe := !answerAt s 0, smp := answerAt s 0, lastAck := !answerAt s 0,
        allAck := s.allAck && !answerAt s 0,
        upc := s.upc + (ackSlotEvents (answerAt s 0)).length, tr := s.tr ++ ackSlotEvents (answerAt s 0),
        answers := s.answers.drop 1, sampleNo := s.sampleNo + 1 } := by
  have h : ∀ t : State, t.answers = s.answers → t.sampleNo = s.sampleNo → answerAt t 0 = answerAt s 0 :=
    fun t ha hn => answerAt_congr ha hn 0
  cases ha : answerAt s 0 <;>
    simp [performAll, ackSlotOps, doOp, pin, pinEvent, Drive.oe, delay, emit, sampleDio, dioLine, takeAnswers, holdIfAcked, foldAck, ackedOf, ackSlotEvents, h, ha]

@[simp] theorem bitSlotEvents_length (v : Bool) : (bitSlotEvents v).length = 6 := by cases v <;> rfl

theorem dataSlotEvents_eq (b : Byte) : dataSlotEvents b =
    bitSlotEvents (b.getLsbD 0) ++ bitSlotEvents (b.getLsbD 1) ++ bitSlotEvents (b.getLsbD 2) ++ bitSlotEvents (b.getLsbD 3) ++
    bitSlotEvents (b.getLsbD 4) ++ bitSlotEvents (b.getLsbD 5) ++ bitSlotEvents (b.getLsbD 6) ++ bitSlotEvents (b.getLsbD 7) := by
  simp [dataSlotEvents, List.range_succ]

@[simp] theorem dataSlotEvents_length (b : Byte) : (dataSlotEvents b).length = 48 := by
  simp [dataSlotEvents_eq]

/-- The eight bit slots of a byte as a micro-step list. -/
def dataSlotOps (b : Byte) : List MicroOp :=
  bitSlotOps (b.getLsbD 0) ++ bitSlotOps (b.getLsbD 1) ++ bitSlotOps (b.getLsbD 2) ++ bitSlotOps (b.getLsbD 3) ++
  bitSlotOps (b.getLsbD 4) ++ bitSlotOps (b.getLsbD 5) ++ bitSlotOps (b.getLsbD 6) ++ bitSlotOps (b.getLsbD 7)

theorem performAll_dataSlots (b : Byte) (s : State) :
    performAll (dataSlotOps b) s =
      { s with clkOe := false, dioOe := !b.getLsbD 7, upc := s.upc + 48, tr := s.tr ++ dataSlotEvents b } := by
  simp only [dataSlotOps, performAll_append, performAll_bitSlot, dataSlotEvents_eq, List.append_assoc, Nat.add_assoc]

/-- Everything `write_byte(b)` does (R95). -/
theorem performAll_writeByte (b : Byte) (s : State) : performAll (writeByteOps b) s = byteEffect b s := by
  rw [show writeByteOps b = dataSlotOps b ++ (ackSlotOps ++ [.foldAck]) by simp [writeByteOps, dataSlotOps],
    performAll_append, performAll_dataSlots, performAll_ackSlot]
  have h : answerAt { s with clkOe := false, dioOe := !b.getLsbD 7, upc := s.upc + 48, tr := s.tr ++ dataSlotEvents b } 0 =
    answerAt s 0 := answerAt_congr rfl rfl 0
  simp only [h, byteEffect, byteEvents, List.length_append, dataSlotEvents_length, List.append_assoc, Nat.add_assoc]

/-! ## Bytes, transactions, the frame -/

@[simp] theorem byteEffect_cfg (b : Byte) (s : State) : (byteEffect b s).cfg = s.cfg := rfl

/-- What a non-empty list of bytes leaves. -/
def bytesEffect (bs : List Byte) (s : State) : State :=
  let n := bs.length
  let as := nextAnswers s n
  { s with
    clkOe := true, dioOe := !answerAt s (n - 1), lastAck := !answerAt s (n - 1), smp := answerAt s (n - 1),
    allAck := s.allAck && as.all (fun a => !a),
    upc := s.upc + (bytesEvents bs as).length, tr := s.tr ++ bytesEvents bs as,
    answers := s.answers.drop n, sampleNo := s.sampleNo + n }

theorem performAll_bytes (b : Byte) (bs : List Byte) (s : State) :
    performAll ((b :: bs).flatMap writeByteOps) s = bytesEffect (b :: bs) s := by
  induction bs generalizing b s with
  | nil => simp [performAll_writeByte, byteEffect, bytesEffect, nextAnswers_one, bytesEvents]
  | cons c bs ih =>
    rw [List.flatMap_cons, performAll_append, performAll_writeByte, ih]
    have hA : ∀ k, answerAt (byteEffect b s) k = answerAt s (k + 1) := fun k => by
      rw [Nat.add_comm, ← answerAt_takeAnswers]; exact answerAt_congr rfl rfl k
    have hN : nextAnswers (byteEffect b s) (bs.length + 1) = nextAnswers (takeAnswers 1 s) (bs.length + 1) :=
      nextAnswers_congr rfl rfl _
    simp only [bytesEffect, List.length_cons, hA, hN, nextAnswers_succ s (bs.length + 1), bytesEvents, Nat.add_sub_cancel]
    simp [byteEffect, List.all_cons, Bool.and_assoc, List.append_assoc, Nat.add_assoc, Nat.add_comm]

/-- A transaction as a micro-step list (R61). -/
def transactionOps (bs : List Byte) : List MicroOp := startOps ++ bs.flatMap writeByteOps ++ stopOps

/-- What a transaction of at least one byte leaves. -/
def transactionEffect (bs : List Byte) (s : State) : State :=
  let n := bs.length
  let as := nextAnswers s n
  { s with
    clkOe := false, dioOe := false, lastAck := !answerAt s (n - 1), smp := answerAt s (n - 1),
    allAck := s.allAck && as.all (fun a => !a),
    upc := s.upc + (transactionEvents bs as).length, tr := s.tr ++ transactionEvents bs as,
    answers := s.answers.drop n, sampleNo := s.sampleNo + n }

theorem performAll_transaction (b : Byte) (bs : List Byte) (s : State) :
    performAll (transactionOps (b :: bs)) s = transactionEffect (b :: bs) s := by
  rw [transactionOps, performAll_append, performAll_append, performAll_start, performAll_bytes, performAll_stop]
  have hA : ∀ k, answerAt { s with dioOe := true, upc := s.upc + 2, tr := s.tr ++ startEvents } k = answerAt s k :=
    fun k => answerAt_congr rfl rfl k
  have hN : ∀ n, nextAnswers { s with dioOe := true, upc := s.upc + 2, tr := s.tr ++ startEvents } n = nextAnswers s n :=
    fun n => nextAnswers_congr rfl rfl n
  simp only [bytesEffect, transactionEffect, transactionEvents, hA, hN]
  simp [startEvents, stopEvents]
  omega

theorem setSegmentsOps_eq (len : Nat) (pos : Byte) (s : State) :
    setSegmentsOps len pos s = (frameBytes len pos s).flatMap transactionOps := by
  simp [setSegmentsOps, frameBytes, transactionOps]

@[simp] theorem digits_length (s : State) (len : Nat) : (digits s len).length = len := by simp [digits]

theorem performAll_frame (len : Nat) (pos : Byte) (s : State) :
    performAll (setSegmentsOps len pos s) s =
      transactionEffect [controlCommand s.bright]
        (transactionEffect (addressCommand pos :: digits s len) (transactionEffect [dataCommand] s)) := by
  rw [setSegmentsOps_eq, frameBytes]
  simp only [List.flatMap_cons, List.flatMap_nil, List.append_nil, performAll_append, performAll_transaction]

theorem nextAnswers_transactionEffect (bs : List Byte) (s : State) (n : Nat) :
    nextAnswers (transactionEffect bs s) n = nextAnswers (takeAnswers bs.length s) n := nextAnswers_congr rfl rfl n

theorem answerAt_transactionEffect (bs : List Byte) (s : State) (k : Nat) :
    answerAt (transactionEffect bs s) k = answerAt s (bs.length + k) := by
  rw [← answerAt_takeAnswers]; exact answerAt_congr rfl rfl k

theorem takeAnswers_transactionEffect_next (bs : List Byte) (s : State) (k n : Nat) :
    nextAnswers (takeAnswers k (transactionEffect bs s)) n = nextAnswers (takeAnswers (bs.length + k) s) n :=
  nextAnswers_congr (by simp [transactionEffect]) (by simp [transactionEffect, Nat.add_assoc]) n

/-- `transactionEffect` written out. -/
theorem transactionEffect_mk (bs : List Byte) (s : State) : transactionEffect bs s =
    { s with
      clkOe := false, dioOe := false, lastAck := !answerAt s (bs.length - 1), smp := answerAt s (bs.length - 1),
      allAck := s.allAck && (nextAnswers s bs.length).all (fun a => !a),
      upc := s.upc + (transactionEvents bs (nextAnswers s bs.length)).length,
      tr := s.tr ++ transactionEvents bs (nextAnswers s bs.length),
      answers := s.answers.drop bs.length, sampleNo := s.sampleNo + bs.length } := rfl

/-- Everything `set_segments(len, pos)` and its response do (R114). -/
theorem sendFrame_eq {s : State} (h : s.cfg.ackWait = false) (len : Nat) (pos : Byte) :
    sendFrame len pos s = frameEffect len pos s := by
  rw [sendFrame, perform_eq h, performAll_frame, transactionEffect_mk [controlCommand s.bright]]
  have e : 3 + len = 1 + ((len + 1) + 1) := by omega
  have hN : nextAnswers s (3 + len) =
      nextAnswers s 1 ++ (nextAnswers (takeAnswers 1 s) (len + 1) ++ nextAnswers (takeAnswers (1 + (len + 1)) s) 1) := by
    rw [e, nextAnswers_add, nextAnswers_add, takeAnswers_takeAnswers]
  simp only [nextAnswers_transactionEffect, answerAt_transactionEffect, takeAnswers_transactionEffect_next,
    List.length_cons, digits_length, List.length_nil]
  rw [transactionEffect_mk (addressCommand pos :: digits s len)]
  simp only [nextAnswers_transactionEffect, List.length_cons, digits_length, List.length_nil]
  rw [transactionEffect_mk [dataCommand]]
  simp only [frameEffect, hN, frameBytes, transactionsEvents, respond, List.length_cons, digits_length, List.length_nil]
  have e2 : 0 + 1 + (len + 1 + (0 + 1 - 1)) = 2 + len := by omega
  simp only [e2]
  simp [nextAnswers_one, List.take_append, List.drop_append, Bool.and_assoc]
  omega

end Sys2Proof.Machine
end

