-- ==== Sys2Proof/Laws/Buffer.lean ====
section
/-! SUPPORT. The digit buffer: what loading raw bytes, the overlay and the formatter leave in it, one lemma per shared
operation (spec/41_encoder.md R111, R115, spec/42_number_format.md R130). -/

namespace Sys2Proof.Machine

/-! ## Registers `DIG[i]` -/

theorem digit_getD (d : Vector Byte 4) (i : Nat) (x : Byte) : d.getD i x = if h : i < 4 then d[i] else x := by
  obtain ⟨⟨l⟩, hl⟩ := d
  simp only [Vector.getD, Array.getD, List.size_toArray] at *
  simp [← hl]

theorem readDig_eq (s : State) {i : Nat} (h : i < 4) : readDig s i = s.dig[i] := by
  simp [readDig, digit_getD, h]

theorem readDig_writeDig (s : State) (i k : Nat) (v : Byte) (hi : i < 4) :
    readDig (writeDig i v s) k = if k = i then v else readDig s k := by
  by_cases hk : k < 4
  · rw [readDig_eq _ hk, readDig_eq _ hk, writeDig_dig]
    simp [Vector.getElem_setIfInBounds, eq_comm]
  · have : k ≠ i := by omega
    simp [readDig, digit_getD, hk, this]

theorem replaceDigits_getElem (len : Nat) (f : Nat → Byte) (d : Vector Byte 4) (k : Nat) (hk : k < 4) :
    (replaceDigits len f d)[k] = if k < len then f k else d[k] := by
  simp [replaceDigits, digit_getD]

theorem replaceDigits_zero (f : Nat → Byte) (d : Vector Byte 4) : replaceDigits 0 f d = d := by
  refine Vector.ext fun k hk => ?_; simp [replaceDigits_getElem]

theorem replaceDigits_succ (len : Nat) (f : Nat → Byte) (d : Vector Byte 4) :
    (replaceDigits len f d).setIfInBounds len (f len) = replaceDigits (len + 1) f d := by
  refine Vector.ext fun k hk => ?_
  rw [Vector.getElem_setIfInBounds, replaceDigits_getElem, replaceDigits_getElem]
  by_cases h : k = len
  · subst h; simp
  · have h1 : ¬ len = k := fun e => h e.symm
    have h2 : k < len + 1 ↔ k < len := by omega
    simp [h1, h2]

theorem replaceDigits_congr {len : Nat} {f g : Nat → Byte} (h : ∀ k, k < len → f k = g k) (d : Vector Byte 4) :
    replaceDigits len f d = replaceDigits len g d := by
  refine Vector.ext fun k hk => ?_
  rw [replaceDigits_getElem, replaceDigits_getElem]
  by_cases hl : k < len
  · simp [hl, h k hl]
  · simp [hl]

theorem replaceDigits_replaceDigits (len : Nat) (f g : Nat → Byte) (d : Vector Byte 4) :
    replaceDigits len f (replaceDigits len g d) = replaceDigits len f d := by
  refine Vector.ext fun k hk => ?_
  rw [replaceDigits_getElem, replaceDigits_getElem, replaceDigits_getElem]
  by_cases hl : k < len <;> simp [hl]

/-! ## Raw bytes (R115) -/

theorem loadDigits_eq (segs : Vector Byte 4) (len : Nat) (s : State) :
    loadDigits segs len s = { s with dig := replaceDigits len (fun k => segs.getD k 0) s.dig } := by
  induction len with
  | zero => simp [loadDigits, replaceDigits_zero]
  | succ n ih => rw [loadDigits, ih, writeDig, ← replaceDigits_succ]

theorem blankDigits_eq (len : Nat) (s : State) :
    blankDigits len s = { s with dig := replaceDigits len (fun _ => 0x00) s.dig } := by
  induction len with
  | zero => simp [blankDigits, replaceDigits_zero]
  | succ n ih => rw [blankDigits, ih, writeDig, ← replaceDigits_succ]

/-! ## The overlay (R111) -/

theorem dotBit_shift (mask : Byte) (i : Nat) (h : i < 8) : (mask <<< i) &&& 0x80 = dotBit mask i := by
  apply BitVec.eq_of_getLsbD_eq
  intro k hk
  have h80 : (0x80 : Byte).getLsbD k = decide (k = 7) := by interval_cases k <;> rfl
  have hd : (dotBit mask i).getLsbD k = (mask.getLsbD (7 - i) && decide (k = 7)) := by
    rw [dotBit]; split <;> simp_all
  rw [hd, BitVec.getLsbD_and, BitVec.getLsbD_shiftLeft, h80]
  by_cases h7 : k = 7
  · subst h7; simp [show ¬ 7 < i by omega]
  · simp [h7]

/-- The overlay in closed form: position i gets bit 7 - i of the mask in bit 7; `MSK` ends shifted left len times. -/
theorem overlayDots_eq (len : Nat) (hl : len ≤ 4) (mask : Byte) (s : State) :
    overlayDots len mask s =
      { s with msk := mask <<< len, dig := replaceDigits len (fun k => s.dig.getD k 0 ||| dotBit mask k) s.dig } := by
  rw [overlayDots]
  induction len with
  | zero => simp [overlayLoop, replaceDigits_zero]
  | succ n ih =>
    rw [overlayLoop, ih (by omega), overlayStep, ← replaceDigits_succ]
    have hn : n < 4 := by omega
    have hr : (replaceDigits n (fun k => s.dig.getD k 0 ||| dotBit mask k) s.dig).getD n 0 = s.dig.getD n 0 := by
      rw [digit_getD, digit_getD]
      simp [replaceDigits_getElem, hn]
    simp only [readDig, hr, dotBit_shift mask n (by omega), writeDig, BitVec.shiftLeft_add]

/-! ## The formatter (R130) -/

/-- The byte the loop leaves at position i of n, started with `REM` = R and `NEG` = neg. -/
def loopByte (c : Config) (bmag : Nat) (neg lz : Bool) (R n i : Nat) : Byte :=
  let j := n - 1 - i
  if lz = false ∧ R / bmag ^ j = 0 then
    if neg = true ∧ (j = 0 ∨ R / bmag ^ (j - 1) ≠ 0) then c.minusGlyph else 0x00
  else encodeDigit c (R / bmag ^ j % bmag)

theorem formatDigit_eq (bmag : Nat) (lz : Bool) (i : Nat) (s : State) :
    formatDigit bmag lz i s =
      { s with
        dig := s.dig.setIfInBounds i (loopByte s.cfg bmag s.neg lz s.rem 1 0),
        neg := s.neg && (lz || decide (s.rem ≠ 0)),
        rem := s.rem / bmag } := by
  have hs : ∀ a b : Byte, (s.dig.setIfInBounds i a).setIfInBounds i b = s.dig.setIfInBounds i b := by
    intro a b; refine Vector.ext fun k hk => ?_; simp only [Vector.getElem_setIfInBounds]; split <;> rfl
  by_cases h : s.rem = 0 <;> cases lz <;> cases hn : s.neg <;>
    simp only [formatDigit, loopByte, writeDig, h, hn, hs] <;> simp [h]

theorem loopByte_last (c : Config) (bmag : Nat) (neg lz : Bool) (R n : Nat) :
    loopByte c bmag neg lz R (n + 1) n = loopByte c bmag neg lz R 1 0 := by
  simp [loopByte]

theorem loopByte_succ (c : Config) (bmag : Nat) (neg lz : Bool) (R n k : Nat) (hk : k < n) :
    loopByte c bmag (neg && (lz || decide (R ≠ 0))) lz (R / bmag) n k = loopByte c bmag neg lz R (n + 1) k := by
  obtain ⟨m, rfl⟩ : ∃ m, n = k + 1 + m := ⟨n - (k + 1), by omega⟩
  have e1 : k + 1 + m - 1 - k = m := by omega
  have e2 : k + 1 + m + 1 - 1 - k = m + 1 := by omega
  simp only [loopByte, e1, e2]
  simp only [Nat.add_one_sub_one, Nat.div_div_eq_div_mul, ← Nat.pow_succ', Nat.succ_eq_add_one]
  generalize hR : R / bmag ^ (m + 1) = r
  by_cases hlz : lz = false ∧ r = 0
  · rw [if_pos hlz, if_pos hlz]
    have hiff : ((neg && (lz || decide (R ≠ 0))) = true ∧ (m = 0 ∨ R / bmag ^ (m - 1 + 1) ≠ 0)) ↔
        (neg = true ∧ (m + 1 = 0 ∨ R / bmag ^ m ≠ 0)) := by
      cases m with
      | zero => simp [hlz.1]
      | succ m => by_cases hR0 : R = 0 <;> simp [hR0]
    simp only [hiff]
  · rw [if_neg hlz, if_neg hlz]

theorem formatLoop_eq (bmag : Nat) (lz : Bool) (n : Nat) (s : State) :
    formatLoop bmag lz n s =
      { s with
        dig := replaceDigits n (loopByte s.cfg bmag s.neg lz s.rem n) s.dig,
        neg := s.neg && (lz || decide (n = 0) || decide (s.rem / bmag ^ (n - 1) ≠ 0)),
        rem := s.rem / bmag ^ n } := by
  induction n generalizing s with
  | zero => simp [formatLoop, replaceDigits_zero]
  | succ n ih =>
    rw [formatLoop, formatDigit_eq, ih]
    simp only [Nat.div_div_eq_div_mul, ← Nat.pow_succ']
    congr 1
    · refine Vector.ext fun k hk => ?_
      rw [replaceDigits_getElem, replaceDigits_getElem, Vector.getElem_setIfInBounds]
      by_cases hkn : k = n
      · subst hkn; simp [loopByte_last]
      · have h1 : ¬ n = k := fun e => hkn e.symm
        by_cases hlt : k < n
        · rw [if_pos hlt, if_pos (by omega), loopByte_succ _ _ _ _ _ _ _ hlt]
        · rw [if_neg hlt, if_neg h1, if_neg (by omega)]
    · cases n with
      | zero => cases lz <;> cases s.neg <;> simp
      | succ m =>
        by_cases hR : s.rem = 0
        · cases lz <;> cases s.neg <;> simp [hR]
        · cases lz <;> cases s.neg <;> simp [hR]

/-- Everything `format_number` does, in closed form (R130, R139, R140). -/
theorem formatNumber_eq (bmag : Nat) (neg : Bool) (value : Nat) (lz : Bool) (len : Nat) (hl : 1 ≤ len) (s : State) :
    formatNumber bmag neg value lz len s =
      { s with
        dig := replaceDigits len (formattedByte s.cfg bmag neg value lz len) s.dig,
        neg := negAfter bmag neg value lz len,
        rem := remAfter s.cfg bmag value lz len s.rem } := by
  by_cases h : value = 0 ∧ lz = false
  · obtain ⟨hv, hlz⟩ := h
    subst hv hlz
    have hd : ∀ d : Vector Byte 4, (replaceDigits (len - 1) (fun _ => 0x00) d).setIfInBounds (len - 1) (encodeDigit s.cfg 0) =
        replaceDigits len (formattedByte s.cfg bmag neg 0 false len) d := by
      intro d
      refine Vector.ext fun k hk => ?_
      rw [Vector.getElem_setIfInBounds, replaceDigits_getElem, replaceDigits_getElem]
      by_cases hk1 : len - 1 = k
      · have : k < len := by omega
        simp [hk1, this, formattedByte]
      · by_cases hk2 : k < len - 1
        · have h3 : k < len := by omega
          have h4 : ¬ len - 1 - k = 0 := by omega
          simp [hk1, hk2, h3, formattedByte, h4]
        · have h3 : ¬ k < len := by omega
          simp [hk1, hk2, h3]
    cases hr : s.cfg.remLoadedOnZero <;>
      simp [formatNumber, formatZero, blankDigits_eq, writeDig, negAfter, remAfter, hr] <;> exact hd _
  · rw [formatNumber]
    simp only [h, if_false, formatLoop_eq]
    congr 1
    · refine replaceDigits_congr (fun k hk => ?_) _
      simp only [loopByte, formattedByte]
      by_cases hc : lz = false ∧ value / bmag ^ (len - 1 - k) = 0
      · have hv : ¬ value = 0 := fun e => h ⟨e, hc.1⟩
        have hj : ¬ len - 1 - k = 0 := by
          intro e
          rw [e] at hc
          simp only [Nat.pow_zero, Nat.div_one] at hc
          exact hv hc.2
        rw [if_pos hc, if_pos hc, if_neg hv]
        simp only [hj, false_or]
      · rw [if_neg hc, if_neg hc]
    · simp only [remAfter, h, if_false]
    · have hn : ¬ len = 0 := by omega
      by_cases hv : value = 0
      · have : lz = true := by
          cases lz
          · exact absurd ⟨hv, rfl⟩ h
          · rfl
        simp [negAfter, this]
      · have hv' : ¬ value = 0 := hv
        simp [negAfter, hn, hv']

end Sys2Proof.Machine
end

