-- ==== Sys2Proof/Laws/Commands.lean ====
section
/-! SUPPORT. What the shared operations of the commands leave: rejection, the SHOW core, the explicit and the stored forms
(spec/42_number_format.md R132, R133, R136), and small facts about operands. -/

namespace Sys2Proof.Machine

/-! ## Operands -/

/-- The magnitude of a signed operand of n bits (R6). -/
theorem absNat_le {n : Nat} {v : Int} (h : fitsSigned n v = true) : absNat v ≤ 2 ^ (n - 1) := by
  simp only [fitsSigned, Bool.and_eq_true, decide_eq_true_eq] at h
  have h2 : ((2 ^ (n - 1) : Nat) : Int) = 2 ^ (n - 1) := by norm_cast
  simp only [absNat]
  omega

/-- `abs(num)` fits `VALUE_W` unsigned bits (R134). -/
theorem decimalValue_fits {n : Nat} {v : Int} (hn : 1 ≤ n) (h : fitsSigned n v = true) :
    fitsUnsigned n (decimalValue v) = true := by
  have h1 := absNat_le h
  have h2 : 2 ^ (n - 1) < 2 ^ n := Nat.pow_lt_pow_right (by decide) (by omega)
  exact decide_eq_true (Nat.lt_of_le_of_lt h1 h2)

theorem lenRefused_eq (c : Config) (len : Byte) : lenRefused c len = !lenAdmitted c len := by
  simp only [lenRefused, lenAdmitted]
  by_cases h1 : 1 ≤ len.toNat <;> by_cases h2 : len.toNat ≤ c.maxDigits <;> simp [h1, h2] <;> omega

theorem baseRefused_eq (base : Int) : baseRefused base = !baseAdmitted base := by
  simp only [baseRefused, baseAdmitted]
  by_cases h : base = 0 <;> simp [h]

theorem decimalBase_admitted (num : Int) : baseRefused (decimalBase num) = false := by
  unfold decimalBase; split <;> decide

/-- An admitted digit count fits `FMT_LEN` (R14). -/
theorem fmtLen_toNat {c : Config} (hm : c.maxDigits = 4) {len : Byte} (h : lenAdmitted c len = true) : (len.setWidth 3).toNat = len.toNat := by
  simp only [lenAdmitted, Bool.and_eq_true, decide_eq_true_eq] at h
  rw [BitVec.toNat_setWidth]
  exact Nat.mod_eq_of_lt (by omega)

/-! ## Rejection -/

theorem refuse_eq (s : State) : refuse s = rejectEffect .refused s := rfl

theorem illegal_eq (s : State) : illegal s = rejectEffect .illegal s := rfl

/-! ## The SHOW core -/

/-- Everything steps 1 to 4 of `show_core` do (R132). -/
theorem fillBuffer_eq (base : Int) (value : Nat) (dots : Byte) (lz : Bool) (len : Nat) (h1 : 1 ≤ len) (h4 : len ≤ 4)
    (s : State) : fillBuffer base value dots lz len s = bufferEffect base value dots lz len s := by
  have hd : ∀ (f : Nat → Byte) (d : Vector Byte 4),
      replaceDigits len (fun k => (replaceDigits len f d).getD k 0 ||| dotBit dots k) (replaceDigits len f d) =
        replaceDigits len (fun k => f k ||| dotBit dots k) d := by
    intro f d
    rw [replaceDigits_replaceDigits]
    refine replaceDigits_congr (fun k hk => ?_) d
    have hk4 : k < 4 := by omega
    rw [digit_getD, dif_pos hk4, replaceDigits_getElem, if_pos hk]
  simp only [fillBuffer, negOfBase, formatNumber_eq _ _ _ _ _ h1, overlayDots_eq _ h4, hd, bufferEffect]

theorem showCore_eq (base : Int) (value : Nat) (dots : Byte) (lz : Bool) (len : Nat) (h1 : 1 ≤ len) (h4 : len ≤ 4)
    (pos : Byte) {s : State} (h : s.cfg.ackWait = false) :
    showCore base value dots lz len pos s = showEffect base value dots lz len pos s := by
  rw [showCore, fillBuffer_eq _ _ _ _ _ h1 h4, showEffect]
  exact sendFrame_eq (by simpa [bufferEffect] using h) len pos

/-- The explicit form, admitted (R133). -/
theorem showExplicit_admitted (base : Int) (value : Nat) (dots : Byte) (lz : Bool) (len pos : Byte) {s : State}
    (h : s.cfg.ackWait = false) (hm : s.cfg.maxDigits = 4) (hl : lenAdmitted s.cfg len = true) (hb : baseAdmitted base = true) :
    showExplicit base value dots lz len pos s =
      showEffect base value dots lz len.toNat pos (writeFormat len lz dots (accept s)) := by
  have hl' := hl
  simp only [lenAdmitted, Bool.and_eq_true, decide_eq_true_eq] at hl'
  rw [showExplicit, lenRefused_eq, baseRefused_eq, hl, hb]
  simp only [Bool.not_true, Bool.or_false, Bool.false_eq_true, if_false, writeFormat_fmtDots, writeFormat_fmtLz,
    writeFormat_fmtLen, fmtLen_toNat hm hl]
  exact showCore_eq _ _ _ _ _ hl'.1 (hm ▸ hl'.2) _ (by simpa using h)

/-- The explicit form, refused (R86, R133). -/
theorem showExplicit_refused (base : Int) (value : Nat) (dots : Byte) (lz : Bool) (len pos : Byte) (s : State)
    (hr : (baseAdmitted base && lenAdmitted s.cfg len) = false) :
    showExplicit base value dots lz len pos s = rejectEffect .refused s := by
  have : (lenRefused s.cfg len || baseRefused base) = true := by
    rw [lenRefused_eq, baseRefused_eq]
    cases hb : baseAdmitted base <;> cases hl : lenAdmitted s.cfg len <;> simp_all
  rw [showExplicit, this]
  rfl

/-- The stored form, admitted (R136); `FMT_LEN` in 1..4 is the invariant of R14. -/
theorem showStored_admitted (base : Int) (value : Nat) (pos : Byte) {s : State} (h : s.cfg.ackWait = false)
    (h1 : 1 ≤ s.fmtLen.toNat) (h4 : s.fmtLen.toNat ≤ 4) (hb : baseAdmitted base = true) :
    showStored base value pos s = showEffect base value s.fmtDots s.fmtLz s.fmtLen.toNat pos (accept s) := by
  rw [showStored, baseRefused_eq, hb]
  simp only [Bool.not_true, Bool.false_eq_true, if_false, accept_fmtDots, accept_fmtLz, accept_fmtLen]
  exact showCore_eq _ _ _ _ _ h1 h4 _ (by simpa using h)

/-- The stored form, refused (R86, R136). -/
theorem showStored_refused (base : Int) (value : Nat) (pos : Byte) (s : State) (hb : baseAdmitted base = false) :
    showStored base value pos s = rejectEffect .refused s := by
  rw [showStored, baseRefused_eq, hb]
  rfl

end Sys2Proof.Machine
end

