-- ==== Sys2Proof/Laws/Display.lean ====
section
/-! SUPPORT. The display positions (spec/20_memory.md R45 to R47): a read after a write, and that every operation keeps the
canonical form. -/

namespace Sys2Proof.Machine

theorem DisplayMem.read_write_same (a : Nat) (v : Byte) (m : DisplayMem) : (m.write a v).read a = some v := by
  induction m with
  | nil => simp [write, read]
  | cons c m ih =>
    obtain ⟨b, w⟩ := c
    rw [write]
    split
    · simp [read]
    · split
      · simp [read]
      · rename_i h; simp [read, h, ih]

theorem DisplayMem.read_write_other {a k : Nat} (h : k ≠ a) (v : Byte) (m : DisplayMem) :
    (m.write a v).read k = m.read k := by
  induction m with
  | nil => simp [write, read, h]
  | cons c m ih =>
    obtain ⟨b, w⟩ := c
    rw [write]
    split
    · simp [read, h]
    · split
      · rename_i e; subst e; simp [read, h]
      · simp [read, ih]

/-- Consecutive writes, read back (R46). -/
theorem DisplayMem.read_writeRun (vs : List Byte) (a k : Nat) (m : DisplayMem) :
    (m.writeRun a vs).read k = if a ≤ k ∧ k < a + vs.length then vs[k - a]? else m.read k := by
  induction vs generalizing a m with
  | nil => simp [writeRun]
  | cons v vs ih =>
    rw [writeRun, ih]
    by_cases hk : k = a
    · subst hk; simp [read_write_same]
    · rw [read_write_other hk]
      by_cases h1 : a + 1 ≤ k ∧ k < a + 1 + vs.length
      · have h2 : a ≤ k ∧ k < a + (v :: vs).length := by simp; omega
        have h3 : k - a = (k - (a + 1)) + 1 := by omega
        rw [if_pos h1, if_pos h2, h3, List.getElem?_cons_succ]
      · have h2 : ¬(a ≤ k ∧ k < a + (v :: vs).length) := by simp; omega
        rw [if_neg h1, if_neg h2]

/-! ## The canonical form -/

theorem DisplayMem.wf_nil : DisplayMem.wf [] = true := rfl

theorem DisplayMem.wf_cons (c : Host.Cell) (m : DisplayMem) :
    DisplayMem.wf (c :: m) = true ↔ c.1 < 4 ∧ (∀ d ∈ m.head?, c.1 < d.1) ∧ m.wf = true := by
  induction m generalizing c with
  | nil => simp [wf]
  | cons d m ih =>
    simp only [wf, Bool.and_eq_true, decide_eq_true_eq, List.head?_cons, Option.mem_some_iff, forall_eq']
    constructor
    · rintro ⟨h1, h2⟩
      have h3 := ((ih d).1 h2).1
      exact ⟨by omega, h1, h2⟩
    · rintro ⟨_, h2, h3⟩
      exact ⟨h2, h3⟩

/-- A write to one of the four positions keeps the canonical form. -/
theorem DisplayMem.wf_write {a : Nat} (ha : a < 4) (v : Byte) {m : DisplayMem} (h : m.wf = true) :
    (m.write a v).wf = true := by
  induction m with
  | nil => simp [write, wf, ha]
  | cons c m ih =>
    obtain ⟨b, w⟩ := c
    have hc := (wf_cons _ _).1 h
    rw [write]
    split
    · rename_i hab
      exact (wf_cons _ _).2 ⟨ha, by simpa using hab, h⟩
    · split
      · rename_i e; subst e
        exact (wf_cons _ _).2 hc
      · rename_i h1 h2
        refine (wf_cons _ _).2 ⟨hc.1, ?_, ih hc.2.2⟩
        have hba : b < a := by omega
        cases m with
        | nil => simpa [write] using hba
        | cons d m =>
          have hd : b < d.1 := hc.2.1 d (by simp)
          obtain ⟨e, x⟩ := d
          rw [write]
          split
          · simpa using hba
          · split
            · simpa using hba
            · simpa using hd

/-- Consecutive writes within the four positions keep the canonical form. -/
theorem DisplayMem.wf_writeRun {a : Nat} (vs : List Byte) (ha : a + vs.length ≤ 4) {m : DisplayMem} (h : m.wf = true) :
    (m.writeRun a vs).wf = true := by
  induction vs generalizing a m with
  | nil => exact h
  | cons v vs ih =>
    simp only [List.length_cons] at ha
    exact ih (by omega) (wf_write (by omega) v h)

theorem showFrame_wf {t1 t2 t3 : List (Byte × Bool)} {d e : Display} (h : d.mem.wf = true)
    (he : showFrame t1 t2 t3 d = some e) : e.mem.wf = true := by
  unfold showFrame at he
  split at he
  · dsimp only at he
    split at he
    · obtain rfl := Option.some.inj he
      dsimp only
      split
      · rename_i hp
        exact DisplayMem.wf_writeRun _ hp h
      · rfl
    · cases he
  · cases he

theorem showFrames_wf (ts : List (List (Byte × Bool))) {d : Display} (h : d.mem.wf = true) :
    (showFrames ts d).mem.wf = true := by
  induction ts, d using showFrames.induct with
  | case1 d => exact h
  | case2 t1 t2 t3 rest d e he ih => rw [showFrames, he]; exact ih (showFrame_wf h he)
  | case3 t1 t2 t3 rest d he ih => rw [showFrames, he]; exact ih rfl
  | case4 ts d h1 h2 => rw [showFrames]; rfl; exact h1; exact h2

/-! ## A frame is shown wherever it stands (R47) -/

/-- The command bytes of the three transactions of a frame (R61 to R64). -/
theorem showFrame_bytes {t1 t2 t3 : List (Byte × Bool)} {d e : Display} (h : showFrame t1 t2 t3 d = some e) :
    ackedBytes t1 = some [0x40] ∧ (∃ adr segs, ackedBytes t2 = some (adr :: segs) ∧ adr &&& 0xFC = 0xC0) ∧
      ∃ ctl, ackedBytes t3 = some [ctl] ∧ ctl &&& 0xF0 = 0x80 := by
  unfold showFrame at h
  split at h
  · rename_i cmd adr segs ctl h1 h2 h3
    dsimp only at h
    split at h
    · rename_i hc
      obtain ⟨rfl, ha, hl, -⟩ := hc
      exact ⟨h1, ⟨adr, segs, h2, ha⟩, ctl, h3, hl⟩
    · cases h
  · cases h

/-- A transaction that begins a frame is neither the second nor the third one of another. -/
theorem showFrame_first_only {t a b : List (Byte × Bool)} {d : Display} (h : ackedBytes t = some [0x40]) :
    showFrame a t b d = none ∧ showFrame a b t d = none := by
  constructor
  · rw [Option.eq_none_iff_forall_not_mem]
    intro e he
    obtain ⟨adr, segs, h1, h2⟩ := (showFrame_bytes he).2.1
    rw [h] at h1
    injection h1 with h1
    injection h1 with h1
    exact absurd (h1 ▸ h2) (by decide)
  · rw [Option.eq_none_iff_forall_not_mem]
    intro e he
    obtain ⟨ctl, h1, h2⟩ := (showFrame_bytes he).2.2
    rw [h] at h1
    injection h1 with h1
    injection h1 with h1
    exact absurd (h1 ▸ h2) (by decide)

/-- Whatever transactions come before it, a fully acknowledged frame is shown over what they left. -/
theorem showFrames_append_frame (ts rest : List (List (Byte × Bool))) {t1 t2 t3 : List (Byte × Bool)} {d e : Display}
    (h : showFrame t1 t2 t3 (showFrames ts d) = some e) :
    showFrames (ts ++ t1 :: t2 :: t3 :: rest) d = showFrames rest e := by
  have h1 := (showFrame_bytes h).1
  induction ts, d using showFrames.induct with
  | case1 d => rw [showFrames] at h; rw [List.nil_append, showFrames, h]
  | case2 a b c ts d f hf ih =>
    rw [showFrames, hf] at h
    simp only [List.cons_append]
    rw [showFrames, hf]
    exact ih h
  | case3 a b c ts d hf ih =>
    rw [showFrames, hf] at h
    simp only [List.cons_append]
    rw [showFrames, hf]
    exact ih h
  | case4 ts d h3 h4 =>
    match ts, h3, h4 with
    | [a], _, _ =>
      have h' : showFrame t1 t2 t3 Display.unknown = some e := h
      simp only [List.cons_append, List.nil_append]
      rw [showFrames, (showFrame_first_only h1).1, showFrames, h']
    | a :: b :: c :: ts, _, h4 => exact absurd rfl (h4 a b c ts)
    | [a, b], _, _ =>
      have h' : showFrame t1 t2 t3 Display.unknown = some e := h
      simp only [List.cons_append, List.nil_append]
      rw [showFrames, (showFrame_first_only h1).2, showFrames, (showFrame_first_only h1).1, showFrames, h']

/-- Whatever happens on the pins, the display positions keep the canonical form. -/
theorem displayAfter_wf (p : Bool × Bool) (es : List Event) {d : Display} (h : d.mem.wf = true) :
    (displayAfter p es d).mem.wf = true := by
  unfold displayAfter
  split
  · rfl
  · split
    · rfl
    · exact showFrames_wf _ h

/-! ## What U8 leaves open (log 17) -/

theorem receiveEvent_stray (e : Event) {r : Receiver} (h : r.stray = true) : (receiveEvent r e).stray = true := by
  cases e with
  | c0 => simp only [receiveEvent, receiveClockFall]; split <;> simp [h]
  | c1 =>
    simp only [receiveEvent, receiveClockRise]
    split
    · split
      · split <;> exact h
      · rfl
    · exact h
  | d0 =>
    simp only [receiveEvent, receiveDataLow]
    split
    · split
      · exact h
      · simp [h]
    · simp [h]
  | d1 => simp only [receiveEvent, receiveDataHigh]; split <;> simp [h]
  | t => exact h
  | s a => exact h

theorem receiveAll_append (r : Receiver) (xs ys : List Event) : receiveAll r (xs ++ ys) = receiveAll (receiveAll r xs) ys := by
  simp [receiveAll]

theorem receiveAll_stray (es : List Event) {r : Receiver} (h : r.stray = true) : (receiveAll r es).stray = true := by
  induction es generalizing r with
  | nil => exact h
  | cons e es ih => exact ih (receiveEvent_stray e h)

/-- Once the pins did something after which the responder is open, the display is not known, whatever follows. -/
theorem displayAfter_stray (p : Bool × Bool) (xs ys : List Event) (d : Display)
    (h : (receiveAll (Receiver.idle p.1 p.2) xs).stray = true) : displayAfter p (xs ++ ys) d = Display.unknown := by
  rw [displayAfter, receiveAll_append, receiveAll_stray ys h]; rfl

end Sys2Proof.Machine
end

