-- ==== Sys2Proof/Laws/Encoding.lean ====
section
/-! SUPPORT. Bits of the encodings: what a field reads and what a placed operand puts at each bit (spec/30_encoding.md R74). -/

namespace Sys2Proof

theorem field_getElem (w : CmdWord) (lo n k : Nat) (h : k < n) : (field w lo n)[k] = w.getLsbD (lo + k) := by
  simp [field]

theorem place_getElem {n : Nat} (v : BitVec n) (lo k : Nat) (h : k < 64) :
    (place v lo)[k] = (decide (lo ≤ k) && v.getLsbD (k - lo)) := by
  simp only [place, BitVec.getElem_shiftLeft]
  by_cases hl : lo ≤ k
  · have h1 : ¬ k < lo := by omega
    simp [hl, h1]
  · have h1 : k < lo := by omega
    simp [hl, h1]

theorem placeBit_getElem (b : Bool) (lo k : Nat) (h : k < 64) : (placeBit b lo)[k] = (decide (k = lo) && b) := by
  rw [placeBit, place_getElem _ _ _ h]
  by_cases h1 : k = lo
  · subst h1; simp
  · by_cases h2 : lo ≤ k
    · have h3 : k - lo ≠ 0 := by omega
      simp [h1, h2, BitVec.getLsbD_ofBool, h3]
    · simp [h1, h2]

end Sys2Proof
end

