-- ==== Sys2Proof/Laws/PerInstr.lean ====
section
/-! SUPPORT. Statements about every command as syntax, one lemma per constructor. `Encoding`: the word of a command has its
opcode in bits 63:60 and 0 in every reserved bit of its format (spec/30_encoding.md R74 to R82). -/

namespace Sys2Proof.Laws.Encoding

open Sys2Proof

/-- The opcode of a command (R75). -/
def opcode : Instr → Nat
  | .start => 0x0
  | .stop => 0x1
  | .wrbyte _ => 0x2
  | .encode _ => 0x3
  | .setseg _ _ _ _ _ _ => 0x4
  | .setbrt _ _ => 0x5
  | .setfmt _ _ _ => 0x6
  | .showbase _ _ _ _ _ _ => 0x7
  | .showdec _ _ _ _ _ => 0x8
  | .showhex _ _ _ _ _ => 0x9
  | .showbaseD _ _ _ => 0xA
  | .showdecD _ _ => 0xB
  | .showhexD _ _ => 0xC

/-- Opcode and reserved bits of the word of a command. -/
def Statement (i : Instr) : Prop :=
  encode i &&& (0xF000000000000000 ||| reservedMask (opcode i)) = BitVec.ofNat 64 (opcode i) <<< 60

theorem start : Statement .start := by unfold Statement; decide
theorem stop : Statement .stop := by unfold Statement; decide
theorem wrbyte (data : Byte) :
    Statement (.wrbyte data) := by
  refine BitVec.eq_of_getElem_eq fun k hk => ?_
  simp only [Sys2Proof.encode, reservedMask, opcode]
  interval_cases k <;> simp [place_getElem]
theorem encode (data : Byte) :
    Statement (.encode data) := by
  refine BitVec.eq_of_getElem_eq fun k hk => ?_
  simp only [Sys2Proof.encode, reservedMask, opcode]
  interval_cases k <;> simp [place_getElem]
theorem setseg (seg0 : Byte) (seg1 : Byte) (seg2 : Byte) (seg3 : Byte) (len : Byte) (pos : Byte) :
    Statement (.setseg seg0 seg1 seg2 seg3 len pos) := by
  refine BitVec.eq_of_getElem_eq fun k hk => ?_
  simp only [Sys2Proof.encode, reservedMask, opcode]
  interval_cases k <;> simp [place_getElem]
theorem setbrt (level : Byte) (on : Bool) :
    Statement (.setbrt level on) := by
  refine BitVec.eq_of_getElem_eq fun k hk => ?_
  simp only [Sys2Proof.encode, reservedMask, opcode]
  interval_cases k <;> simp [place_getElem, placeBit_getElem]
theorem setfmt (len : Byte) (lz : Bool) (dots : Byte) :
    Statement (.setfmt len lz dots) := by
  refine BitVec.eq_of_getElem_eq fun k hk => ?_
  simp only [Sys2Proof.encode, reservedMask, opcode]
  interval_cases k <;> simp [place_getElem, placeBit_getElem]
theorem showbase (base : Int) (value : Nat) (dots : Byte) (lz : Bool) (len : Byte) (pos : Byte) :
    Statement (.showbase base value dots lz len pos) := by
  refine BitVec.eq_of_getElem_eq fun k hk => ?_
  simp only [Sys2Proof.encode, reservedMask, opcode]
  interval_cases k <;> simp [place_getElem, placeBit_getElem]
theorem showdec (num : Int) (dots : Byte) (lz : Bool) (len : Byte) (pos : Byte) :
    Statement (.showdec num dots lz len pos) := by
  refine BitVec.eq_of_getElem_eq fun k hk => ?_
  simp only [Sys2Proof.encode, reservedMask, opcode]
  interval_cases k <;> simp [place_getElem, placeBit_getElem]
theorem showhex (value : Nat) (dots : Byte) (lz : Bool) (len : Byte) (pos : Byte) :
    Statement (.showhex value dots lz len pos) := by
  refine BitVec.eq_of_getElem_eq fun k hk => ?_
  simp only [Sys2Proof.encode, reservedMask, opcode]
  interval_cases k <;> simp [place_getElem, placeBit_getElem]
theorem showbaseD (base : Int) (value : Nat) (pos : Byte) :
    Statement (.showbaseD base value pos) := by
  refine BitVec.eq_of_getElem_eq fun k hk => ?_
  simp only [Sys2Proof.encode, reservedMask, opcode]
  interval_cases k <;> simp [place_getElem]
theorem showdecD (num : Int) (pos : Byte) :
    Statement (.showdecD num pos) := by
  refine BitVec.eq_of_getElem_eq fun k hk => ?_
  simp only [Sys2Proof.encode, reservedMask, opcode]
  interval_cases k <;> simp [place_getElem]
theorem showhexD (value : Nat) (pos : Byte) :
    Statement (.showhexD value pos) := by
  refine BitVec.eq_of_getElem_eq fun k hk => ?_
  simp only [Sys2Proof.encode, reservedMask, opcode]
  interval_cases k <;> simp [place_getElem]

end Sys2Proof.Laws.Encoding
end

