-- ==== Sys2Proof/Laws/Run.lean ====
section
/-! SUPPORT. Runs of the machine, the sequencer between samples, and single micro-steps (spec/10_state.md R25,
spec/40_transport.md R98). -/

namespace Sys2Proof.Machine

theorem run_zero (s : State) : Sys2Proof.core.run 0 s = .next s := rfl

theorem run_succ {s t : State} (h : step s = .next t) (n : Nat) : Sys2Proof.core.run (n + 1) s = Sys2Proof.core.run n t := by
  simp only [Host.Core.run]
  rw [show Sys2Proof.core.step s = .next t from h]

/-! ## The step, case by case -/

theorem step_reset {s : State} (h : s.resetIn = true) : step s = .next (applyReset s) := by simp [step, h]

theorem step_busy {s : State} (hr : s.resetIn = false) (h : s.busy = true) : step s = .next (resume s) := by
  simp [step, hr, h]

theorem step_idle {s : State} (hr : s.resetIn = false) (h : s.busy = false) (hq : s.cmdQueue = []) :
    step s = .next (idle s) := by simp [step, hr, h, fetch, hq]

theorem step_presented {s : State} {p : Presented} {ps : List Presented} (hr : s.resetIn = false) (h : s.busy = false)
    (hq : s.cmdQueue = p :: ps) : step s = runPresented p { s with cmdQueue := ps } := by simp [step, hr, h, fetch, hq]

theorem runPresented_word {s : State} (h : s.cfg.takesWords = true) (w : CmdWord) :
    runPresented (.word w) s = runWord w s := by simp [runPresented, h]

theorem runPresented_decoded {s : State} {i : Instr} (h : i.fits s.cfg = true) :
    runPresented (.decoded i) s = exec i s := by simp [runPresented, h]

/-! ## The sequencer -/

/-- Up to the first sample nothing can wait: a list without samples in front is performed to its end (R98). -/
theorem perform_append {xs : List MicroOp} (h : MicroOp.sample ∉ xs) (ys : List MicroOp) (s : State) :
    perform (xs ++ ys) s = perform ys (performAll xs s) := by
  induction xs generalizing s with
  | nil => rfl
  | cons op xs ih =>
    have h1 : op ≠ .sample := fun e => h (e ▸ List.mem_cons_self)
    have h2 : waits op (doOp op s) = false := by cases op <;> first | rfl | exact absurd rfl h1
    simp only [List.cons_append, perform, h2]
    exact ih (fun hm => h (List.mem_cons_of_mem _ hm)) _

theorem doOp_busy (op : MicroOp) (s : State) : (doOp op s).busy = s.busy := by
  cases op with
  | pin l d => cases l <;> cases d <;> rfl
  | delay => rfl
  | sample => simp only [doOp, sampleDio]; split <;> rfl
  | holdIfAcked => rfl
  | foldAck => rfl

theorem doOp_todo (op : MicroOp) (s : State) : (doOp op s).todo = s.todo := by
  cases op with
  | pin l d => cases l <;> cases d <;> rfl
  | delay => rfl
  | sample => simp only [doOp, sampleDio]; split <;> rfl
  | holdIfAcked => rfl
  | foldAck => rfl

/-- No entry of a list reads the rest of the list. -/
theorem doOp_withTodo (op : MicroOp) (l : List MicroOp) (s : State) :
    doOp op { s with todo := l } = { doOp op s with todo := l } := by
  cases op with
  | pin l' d => cases l' <;> cases d <;> rfl
  | delay => rfl
  | sample => simp only [doOp, sampleDio]; split <;> rfl
  | holdIfAcked => rfl
  | foldAck => rfl

theorem microRun_add (m n : Nat) (s : State) : microRun (m + n) s = microRun n (microRun m s) := by
  induction m generalizing s with
  | zero => rw [Nat.zero_add]; rfl
  | succ m ih => rw [Nat.succ_add]; exact ih _

end Sys2Proof.Machine
end

