-- ==== Sys2Proof/Tests/Slice0.lean ====
section
/-! SUPPORT. Tests. Expected results come from spec/95_test_vectors.md (named vectors), from the encodings written out bit by
bit from spec/30_encoding.md, and from the worked examples of the rules; and one witness for the hypotheses of each
statement of Certificates/Slice0/Obligations.lean. -/

namespace Sys2Proof.Machine

/-! ## Helpers -/

/-- The parameters with every open value set, for evaluation. -/
def tCfg : Config := { Config.spec with bitDelay := 0, remLoadedOnZero := false }

/-- A block after reset with `BRIGHT` = 0xF and the next answers as given. -/
def tState (as : List Bool) : State := { State.reset with bright := 0xF, cfg := tCfg, answers := as }

/-- Every sample of a frame returns 0. -/
def tAcked : State := tState (List.replicate 7 false)

/-- The state of an outcome that is a next state. -/
def nextOf (o : Host.Outcome State Fault Refusal) : Option State :=
  match o with
  | .next s => some s
  | _ => none

/-- What an instruction leaves, looked at through f. -/
def after {α : Type} (i : Instr) (s : State) (f : State → α) : Option α := (nextOf (exec i s)).map f

/-! ## WellFormed refuses an ill-formed term of each check (R86) -/

theorem test_wf_setseg_len0 : ¬ (Instr.setseg 0 0 0 0 0 0).WellFormed tCfg := by decide
theorem test_wf_setseg_len5 : ¬ (Instr.setseg 0 0 0 0 5 0).WellFormed tCfg := by decide
theorem test_wf_setfmt_len0 : ¬ (Instr.setfmt 0 false 0).WellFormed tCfg := by decide
theorem test_wf_showbase_base0 : ¬ (Instr.showbase 0 5 0 false 2 0).WellFormed tCfg := by decide
theorem test_wf_showbase_len5 : ¬ (Instr.showbase 10 5 0 false 5 0).WellFormed tCfg := by decide
theorem test_wf_showdec_len255 : ¬ (Instr.showdec 5 0 false 255 0).WellFormed tCfg := by decide
theorem test_wf_showhex_len0 : ¬ (Instr.showhex 5 0 false 0 0).WellFormed tCfg := by decide
theorem test_wf_showbaseD_base0 : ¬ (Instr.showbaseD 0 5 0).WellFormed tCfg := by decide
theorem test_wf_accepts : (Instr.showbase (-128) 5 0 false 4 255).WellFormed tCfg := by decide

/-! ## Operand widths: an operand that does not fit each width -/

theorem test_fits_base129 : (Instr.showbase 128 5 0 false 4 0).fits tCfg = false := by decide
theorem test_fits_value17bits : (Instr.showhexD 65536 0).fits tCfg = false := by decide
theorem test_fits_num : (Instr.showdec 32768 0 false 4 0).fits tCfg = false := by decide
theorem test_fits_accepts : (Instr.showbase (-128) 65535 0 false 4 0).fits tCfg = true := by decide

/-! ## Decoding: words written out from the formats R76 to R82 -/

theorem test_decode_start : decode 0x0000000000000000 = .ok .start := by rfl
theorem test_decode_stop : decode 0x1000000000000000 = .ok .stop := by rfl
theorem test_decode_wrbyte : decode 0x2000000000000040 = .ok (.wrbyte 0x40) := by rfl
theorem test_decode_encode : decode 0x300000000000001A = .ok (.encode 0x1A) := by rfl
/-- V 2.5: SETSEG [0xFF, 0x00, 0x55, 0xAA], 7. -/
theorem test_decode_setseg : decode 0x40000704AA5500FF = .ok (.setseg 0xFF 0x00 0x55 0xAA 4 7) := by rfl
theorem test_decode_setbrt : decode 0x5000000000000107 = .ok (.setbrt 7 true) := by rfl
theorem test_decode_setfmt : decode 0x6000000401400000 = .ok (.setfmt 4 true 0x40) := by rfl
/-- op 0x7, base 0xF6 (-10), pos 3, len 2, lz 1, dots 0x81, value 0xBEEF. -/
theorem test_decode_showbase :
    decode 0b0111000011110110000000110000001000000001100000011011111011101111 =
      .ok (.showbase (-10) 0xBEEF 0x81 true 2 3) := by rfl
/-- Program 4: SHOWDEC -5, 0, 0, 2, 2. -/
theorem test_decode_showdec : decode 0x800002020000FFFB = .ok (.showdec (-5) 0 false 2 2) := by rfl
theorem test_decode_showhex : decode 0x900000040000BEEF = .ok (.showhex 0xBEEF 0 false 4 0) := by rfl
theorem test_decode_showbaseD : decode 0xA00A000000000005 = .ok (.showbaseD 10 5 0) := by rfl
theorem test_decode_showdecD : decode 0xB0000000000004D2 = .ok (.showdecD 1234 0) := by rfl
theorem test_decode_showhexD : decode 0xC0000500000000FF = .ok (.showhexD 0xFF 5) := by rfl
/-- V 2.7. -/
theorem test_decode_reserved_op : decode 0xF000000000000000 = .error (.reservedOpcode 15) := by rfl
theorem test_decode_start_bit0 : decode 0x0000000000000001 = .error (.reservedBits 0) := by rfl
theorem test_decode_wrbyte_bit8 : decode 0x2000000000000140 = .error (.reservedBits 2) := by rfl
theorem test_decode_showdec_base : decode 0x8001000400000005 = .error (.reservedBits 8) := by rfl

/-! ## Commands -/

/-- V-T1. -/
theorem test_start_idle : after .start tAcked (fun s => (s.tr, s.clkOe, s.dioOe, s.rsp)) =
    some ([.d0, .t], false, true, some ⟨.ok, true, 0⟩) := by decide
/-- V-T2b. -/
theorem test_stop_after_nack : after .stop { tAcked with clkOe := true } (fun s => (s.tr, s.clkOe, s.dioOe)) =
    some ([.d0, .t, .c1, .t, .d1, .t], false, false) := by decide
/-- V-T3: WRBYTE 0x40 acknowledged, the whole trace. -/
theorem test_wrbyte_40 : after (.wrbyte 0x40) { tAcked with dioOe := true } (fun s => (s.tr, s.clkOe, s.dioOe, s.rsp)) =
    some ([.c0, .t, .d0, .t, .c1, .t, .c0, .t, .d0, .t, .c1, .t, .c0, .t, .d0, .t, .c1, .t, .c0, .t, .d0, .t, .c1, .t,
      .c0, .t, .d0, .t, .c1, .t, .c0, .t, .d0, .t, .c1, .t, .c0, .t, .d1, .t, .c1, .t, .c0, .t, .d0, .t, .c1, .t,
      .c0, .d1, .t, .c1, .t, .s false, .d0, .t, .c0, .t], true, true, some ⟨.ok, true, 0⟩) := by decide +kernel
/-- V-T4: WRBYTE 0xA5 not acknowledged, the whole trace. -/
theorem test_wrbyte_A5_nack :
    after (.wrbyte 0xA5) { tState [true] with dioOe := true } (fun s => (s.tr, s.clkOe, s.dioOe, s.lastAck, s.rsp)) =
    some ([.c0, .t, .d1, .t, .c1, .t, .c0, .t, .d0, .t, .c1, .t, .c0, .t, .d1, .t, .c1, .t, .c0, .t, .d0, .t, .c1, .t,
      .c0, .t, .d0, .t, .c1, .t, .c0, .t, .d1, .t, .c1, .t, .c0, .t, .d0, .t, .c1, .t, .c0, .t, .d1, .t, .c1, .t,
      .c0, .d1, .t, .c1, .t, .s true, .t, .c0, .t], true, false, false, some ⟨.ok, false, 0⟩) := by decide +kernel
/-- V 2.2. -/
theorem test_encode_1A : after (.encode 0x1A) tAcked (fun s => s.rsp) = some (some ⟨.ok, true, 0x77⟩) := by decide
theorem test_encode_F0 : after (.encode 0xF0) tAcked (fun s => s.rsp) = some (some ⟨.ok, true, 0x3F⟩) := by decide
/-- V 2.4. -/
theorem test_setbrt_mask : after (.setbrt 0xFF true) tAcked (fun s => s.bright) = some 0xF := by decide
theorem test_setbrt_8 : after (.setbrt 8 false) tAcked (fun s => s.bright) = some 0x0 := by decide
theorem test_setfmt : after (.setfmt 3 true 0x40) tAcked (fun s => (s.fmtLen, s.fmtLz, s.fmtDots)) = some (3, true, 0x40) := by
  decide
theorem test_setfmt_refused : after (.setfmt 5 true 0x40) tAcked (fun s => (s.fmtLen, s.rsp)) =
    some (4, some ⟨.refused, true, 0⟩) := by decide
/-- V 2.5: `S 40 P S C1 06 DB P S 8F P`. -/
theorem test_setseg_frame : after (.setseg 0x06 0xDB 0 0 2 1) tAcked (fun s => wireItems (false, false) s.tr) =
    some [.start, .byte 0x40 true, .stop, .start, .byte 0xC1 true, .byte 0x06 true, .byte 0xDB true, .stop,
      .start, .byte 0x8F true, .stop] := by decide +kernel
/-- V 2.5: 314 events, 152 of them T. -/
theorem test_setseg_counts : after (.setseg 0x06 0xDB 0 0 2 1) tAcked (fun s => (s.tr.length, s.tr.count .t)) =
    some (314, 152) := by decide +kernel
/-- V 2.6, base -10, value 5, len 4. -/
theorem test_showbase_neg : after (.showbase (-10) 5 0 false 4 0) tAcked (fun s => (s.dig, s.neg)) =
    some (#v[0x00, 0x00, 0x40, 0x6D], false) := by decide +kernel
/-- V 2.6, base -128, value 200, len 3. -/
theorem test_showbase_m128 : after (.showbase (-128) 200 0 false 3 0) tAcked (fun s => s.dig) =
    some #v[0x40, 0x06, 0x7F, 0x00] := by decide +kernel
/-- V 2.6, what SHOWDEC -32768 shows. -/
theorem test_showdec_min : after (.showdec (-32768) 0 false 4 0) tAcked (fun s => (s.dig, s.neg)) =
    some (#v[0x5B, 0x07, 0x7D, 0x7F], true) := by decide +kernel
/-- Program 4, command 2. -/
theorem test_showdec_m5 : after (.showdec (-5) 0 false 2 2) tAcked (fun s => (s.dig, s.fmtLen)) =
    some (#v[0x40, 0x6D, 0x00, 0x00], 2) := by decide +kernel
/-- Program 4, command 3: the fourth sample returns 1. -/
theorem test_showhex_lost_ack :
    after (.showhex 0xBEEF 0 false 4 0) (tState [false, false, false, true, false, false, false])
      (fun s => (s.dig, s.tr.length, s.rsp, s.lastAck)) =
    some (#v[0x7C, 0x79, 0x79, 0x71], 429, some ⟨.ok, false, 0⟩, true) := by decide +kernel
/-- V 2.6, base 20, value 399, len 2, by the stored form. -/
theorem test_showbaseD_20 : after (.showbaseD 20 399 0) { tAcked with fmtLen := 2 } (fun s => s.dig) =
    some #v[0x4F, 0x4F, 0x00, 0x00] := by decide +kernel
/-- Program 3, command 3. -/
theorem test_showdecD_clock :
    after (.showdecD 1234 0) { tAcked with fmtLz := true, fmtDots := 0x40, bright := 0xA } (fun s => (s.dig, s.msk)) =
    some (#v[0x06, 0xDB, 0x4F, 0x66], 0x00) := by decide +kernel
/-- R138. -/
theorem test_showhexD_FF : after (.showhexD 0xFF 0) tAcked (fun s => s.dig) = some #v[0x00, 0x00, 0x71, 0x71] := by
  decide +kernel

/-! ## The step -/

/-- Program 5: a reserved opcode leaves the block usable. -/
theorem test_step_illegal : (nextOf (step { tAcked with cmdQueue := [.word 0xF000000000000000] })).map (fun s => (s.rsp, s.tr)) =
    some (some ⟨.illegal, true, 0⟩, []) := by decide
/-- Word 0x7000000500000005 of V 2.7. -/
theorem test_step_refused : (nextOf (step { tAcked with cmdQueue := [.word 0x7000000500000005] })).map (fun s => (s.rsp, s.dig)) =
    some (some ⟨.refused, true, 0⟩, #v[0, 0, 0, 0]) := by decide
/-- V-T7: `ACK_WAIT` = true, oracle 1, 1, 0: three steps, three samples. -/
theorem test_ack_wait :
    ((nextOf (Sys2Proof.core.run 3 { tState [true, true, false] with
      cfg := { tCfg with ackWait := true }, cmdQueue := [.word 0x2000000000000000] })).map
        (fun s => (s.tr.drop 48, s.rsp, s.busy))) =
    some ([.c0, .d1, .t, .c1, .t, .s true, .s true, .s false, .d0, .t, .c0, .t], some ⟨.ok, true, 0⟩, false) := by
  decide +kernel
/-- The host's placement runs the word as the first command after reset. -/
theorem test_fetch_word : (nextOf (step (State.reset.withFetchWord 64 0x300000000000001A))).map (fun s => s.rsp) =
    some (some ⟨.ok, true, 0x77⟩) := by decide
theorem test_decode_table_word : decodeTableWord 64 0x2000000000000040 = some (.wrbyte 0x40) := by rfl

/-- R74, R139 at `VALUE_W` = 20: 123456 in base 10 shows its low four digits 3456. -/
theorem test_step_wide : (nextOf (step { tAcked with
      cfg := { tCfg with valueW := 20 }, cmdQueue := [.decoded (.showbase 10 123456 0 false 4 0)] })).map (fun s => s.dig) =
    some #v[0x4F, 0x66, 0x6D, 0x7D] := by decide +kernel

/-! ## Outside the block -/

/-- U8: a byte on an idle bus, then an acknowledged frame: the display is not known. -/
theorem test_display_stray : (after (.wrbyte 0x40) (tState [true]) id).bind (fun s =>
      after .stop s (fun t => displayAfter (false, false) t.tr ⟨[(0, 1)], some 2⟩)) = some Display.unknown := by
  decide +kernel
/-- U8: START on a bus that is not idle (START, then a frame, and START after a byte), and STOP on an idle bus before a frame. -/
theorem test_display_start_start : (after .start tAcked id).bind (fun s =>
      after (.setseg 1 0 0 0 1 0) s (fun t => displayAfter (false, false) t.tr ⟨[(0, 1)], some 2⟩)) = some Display.unknown := by
  decide +kernel
theorem test_stray_start_after_byte :
    (receiveAll (Receiver.idle false false) (startEvents ++ byteEvents 0x40 false ++ startEvents ++ stopEvents)).stray = true := by
  decide +kernel
theorem test_display_stop_idle : (after .stop tAcked id).bind (fun s =>
      after (.setseg 1 0 0 0 1 0) s (fun t => displayAfter (false, false) t.tr ⟨[(0, 1)], some 2⟩)) = some Display.unknown := by
  decide +kernel
theorem test_not_stray : (receiveAll (Receiver.idle false false)
    (transactionsEvents [[0x40], [0xC0, 0xFF, 0x00], [0x8F]] [false, false, true, false, false])).stray = false := by
  decide +kernel
/-- R47: a frame after one whole raw transaction (START, WRBYTE, STOP) is shown. -/
theorem test_display_after_raw : (after .start (tState (List.replicate 5 false)) id).bind (fun s =>
    (after (.wrbyte 0x40) s id).bind (fun s => (after .stop s id).bind (fun s =>
      after (.setseg 6 0 0 0 1 1) s (fun t => displayAfter (false, false) t.tr ⟨[(0, 1)], some 2⟩)))) =
        some ⟨[(1, 0x06)], some 0xF⟩ := by decide +kernel
/-- U6: `SETSEG [1, 2], 3` runs past position 3; brightness from R47. -/
theorem test_display_past : after (.setseg 1 2 0 0 2 3) tAcked (fun s => displayAfter (false, false) s.tr ⟨[(0, 1)], none⟩) =
    some ⟨[], some 0xF⟩ := by decide +kernel
/-- R98, R44(d): a frame acknowledged at the second sample of its first slot is a frame of acknowledged bytes. -/
theorem test_display_waited : (nextOf (Sys2Proof.core.run 2 { tState [true, false, false, false, false] with
      cfg := { tCfg with ackWait := true }, cmdQueue := [.word 0x4000010100000006] })).map
        (fun s => displayAfter (false, false) s.tr Display.unknown) = some ⟨[(1, 0x06)], some 0xF⟩ := by decide +kernel

/-- Program 1's display: blank, blank, 4, 2 at full brightness. -/
theorem test_display : after (.showdec 42 0 false 4 0) tAcked (fun s => displayAfter (false, false) s.tr Display.unknown) =
    some ⟨[(0, 0x00), (1, 0x00), (2, 0x66), (3, 0x5B)], some 0xF⟩ := by decide +kernel
/-- 95_test_vectors.md section 4, run against Program 1. -/
theorem test_responder : after (.showdec 42 0 false 4 0) tAcked
      (fun s => ((respondAll (RefResponder.idle false false) s.tr).agrees, (respondAll (RefResponder.idle false false) s.tr).log)) =
    some (true, [.start, .byte 0x40 true, .stop, .start, .byte 0xC0 true, .byte 0x00 true, .byte 0x00 true,
      .byte 0x66 true, .byte 0x5B true, .stop, .start, .byte 0x8F true, .stop]) := by decide +kernel
/-- R85: operand order, list, comment. -/
theorem test_assemble_setseg : (assembleLine "SETSEG [0x06, 0xDB], 1 ; two digits".toList).map encode =
    some 0x400001020000DB06 := by decide +kernel
theorem test_assemble_showdec : (assembleLine "SHOWDEC -5, 0, 0, 2, 2".toList).map encode = some 0x800002020000FFFB := by
  decide +kernel

/-! ## Witnesses: for each statement with hypotheses, concrete data that meets all of them (each clause at a boundary) -/

/-- A word presented to a block that is ready. -/
def tPresented : State := { tAcked with cmdQueue := [.word 0x2000000000000040, .word 0x1000000000000000] }

/-- A block that waits for an acknowledgement under `ACK_WAIT`, the rest of a `WRBYTE` still to do. -/
def tWaiting : State :=
  { tState [true, true] with
    cfg := { tCfg with ackWait := true }, clkOe := false, busy := true, smp := true,
    todo := [.sample, .holdIfAcked, .delay, .pin .clk .drive, .delay, .foldAck] }

theorem witness_DecodeOfEncode : (Instr.showbase (-128) 65535 0xFF true 255 255).HasWord ∧
    (Instr.showdec (-32768) 0 false 0 0).HasWord ∧ (Instr.showdecD 32767 0).HasWord := by decide
theorem witness_EncodeOfDecode : decode 0x40000704AA5500FF = .ok (.setseg 0xFF 0x00 0x55 0xAA 4 7) := by rfl
theorem witness_StepRunsTheDecodedCommand : tPresented.cfg.takesWords = true ∧ tPresented.resetIn = false ∧
    tPresented.busy = false ∧ tPresented.cmdQueue = .word 0x2000000000000040 :: [.word 0x1000000000000000] ∧
    decode 0x2000000000000040 = .ok (.wrbyte 0x40) := ⟨rfl, rfl, rfl, rfl, rfl⟩
/-- A block with `VALUE_W` = 20, to which something is presented. -/
def tWide (p : Presented) : State := { tAcked with cfg := { tCfg with valueW := 20 }, cmdQueue := [p] }
theorem witness_DecodedCommands_fits : let i := Instr.showbase 10 1048575 0 false 4 0
    (tWide (.decoded i)).resetIn = false ∧ (tWide (.decoded i)).busy = false ∧
    (tWide (.decoded i)).cmdQueue = .decoded i :: [] ∧ i.fits (tWide (.decoded i)).cfg = true := by decide
theorem witness_DecodedCommands_too_wide : let i := Instr.showbase 10 1048576 0 false 4 0
    (tWide (.decoded i)).cmdQueue = .decoded i :: [] ∧ i.fits (tWide (.decoded i)).cfg = false := by decide
theorem witness_DecodedCommands_word : (tWide (.word 0)).cmdQueue = .word 0 :: [] ∧ (tWide (.word 0)).resetIn = false ∧
    (tWide (.word 0)).busy = false ∧ (tWide (.word 0)).cfg.takesWords = false := by decide
theorem witness_DecodedCommands_same : let s := { tAcked with cmdQueue := [.decoded (.showbase 10 65535 0 false 4 0)] }
    s.cfg.takesWords = true ∧ s.resetIn = false ∧ s.busy = false ∧
    (Instr.showbase 10 65535 0 false 4 0).fits s.cfg = true := by decide
theorem witness_FetchWordRunsTheCommand : tAcked.cfg.takesWords = true ∧ (Instr.showdecD (-32768) 0).HasWord := by decide
theorem witness_NothingFaults : ∀ p ∈ tPresented.cmdQueue.head?, presentable tPresented.cfg p = true := by decide
theorem witness_BusyBlockTakesNoCommand : tWaiting.resetIn = false ∧ tWaiting.busy = true := by decide
theorem witness_ReadyBlockWithoutCommandIdles : tAcked.resetIn = false ∧ tAcked.busy = false ∧ tAcked.cmdQueue = [] := by
  decide
/-- A word presented to the acknowledged block. -/
def tWord (w : CmdWord) : State := { tAcked with cmdQueue := [.word w] }
theorem witness_Illegal_opcode : let s := tWord 0xD000000000000000
    s.cfg.takesWords = true ∧ s.resetIn = false ∧ s.busy = false ∧ s.cmdQueue = .word 0xD000000000000000 :: [] ∧
    13 ≤ ((0xD000000000000000 : CmdWord) >>> 60).toNat := by decide
theorem witness_Illegal_reserved : let s := tWord 0x2000000000000140
    s.cfg.takesWords = true ∧ s.resetIn = false ∧ s.busy = false ∧ s.cmdQueue = .word 0x2000000000000140 :: [] ∧
    ∃ row ∈ opcodeRows, (0x2000000000000140 : CmdWord) >>> 60 = row.1 >>> 60 ∧
      0x2000000000000140 &&& row.2 ≠ row.1 := by decide
/-- For every statement whose premises are on `ACK_WAIT` and on the stored format. -/
theorem witness_ackWait_false : tAcked.cfg.wf = true ∧ tAcked.cfg.ackWait = false ∧ 1 ≤ tAcked.fmtLen.toNat ∧ tAcked.fmtLen.toNat ≤ 4 := by decide
theorem witness_ackWait_false_len1 : { tAcked with fmtLen := 1 }.cfg.ackWait = false ∧
    1 ≤ { tAcked with fmtLen := 1 }.fmtLen.toNat := by decide
/-- R134: the boundary `num` = -32768 gives 32768. -/
theorem witness_ShowdecEffect_magnitude :
    fitsSigned tAcked.cfg.valueW (-32768) = true ∧ (-32768 : Int).natAbs = 32768 ∧
    fitsSigned tAcked.cfg.valueW (-32769) = false := by decide
theorem witness_SampleReadsTheLine : { tAcked with dioOe := true }.dioOe = true ∧ tAcked.dioOe = false := by decide
theorem witness_WrbyteOnAnIdleBusIsNotReceived :
    tAcked.cfg.ackWait = false ∧ tAcked.clkOe = false ∧ tAcked.dioOe = false := by decide
theorem witness_WaveformShowsOnlyChanges : Event.c0 ≠ .t ∧
    pinsAfter ([Event.c0, .t].foldl pinsAfter (false, false)) .c0 = [Event.c0, .t].foldl pinsAfter (false, false) := by decide
/-- A `WRBYTE` presented under `ACK_WAIT`, the responder answering n ones and then a zero. -/
def tAsking (n : Nat) : State :=
  { tState (List.replicate n true ++ [false]) with
    cfg := { tCfg with ackWait := true }, cmdQueue := [.word (encode (.wrbyte 0x40))] }
theorem witness_AckWaitSamplesUntilAcknowledged_0 : let s := tAsking 0
    s.cfg.ackWait = true ∧ s.cfg.takesWords = true ∧ s.resetIn = false ∧ s.busy = false ∧
    s.cmdQueue = .word (encode (.wrbyte 0x40)) :: [] ∧ s.answers = List.replicate 0 true ++ false :: [] := by decide
theorem witness_AckWaitSamplesUntilAcknowledged_2 : let s := tAsking 2
    s.cfg.ackWait = true ∧ s.cfg.takesWords = true ∧ s.resetIn = false ∧ s.busy = false ∧
    s.cmdQueue = .word (encode (.wrbyte 0x40)) :: [] ∧ s.answers = List.replicate 2 true ++ false :: [] := by decide
theorem witness_AckWaitHangsWithoutAcknowledgement : tWaiting.cfg.ackWait = true ∧ tWaiting.resetIn = false ∧
    tWaiting.busy = true ∧ tWaiting.todo.head? = some .sample ∧ tWaiting.dioOe = false ∧
    tWaiting.answers = List.replicate 2 true ++ [] := by decide
theorem witness_AckWaitVariantsAgreeWhenAcknowledged : (setAckWait true tAcked).cfg.wf = true ∧ (setAckWait true tAcked).cfg.ackWait = true ∧
    (setAckWait true tAcked).fmtLen.toNat ≤ 4 ∧ everySampleZero (setAckWait true tAcked) 7 := by
  refine ⟨by decide, rfl, by decide, ?_⟩
  unfold everySampleZero; decide
theorem witness_EncodeEffect : tCfg.wf = true := by decide
/-- SETFMT, SETSEG and the explicit SHOW forms: 1 and 4 are admitted, 0 and 5 are not. -/
theorem witness_len : 1 ≤ (1 : Byte).toNat ∧ (1 : Byte).toNat ≤ 4 ∧ 1 ≤ (4 : Byte).toNat ∧ (4 : Byte).toNat ≤ 4 ∧
    (0 : Byte).toNat < 1 ∧ 4 < (5 : Byte).toNat ∧ 4 < (255 : Byte).toNat := by decide
/-- SHOWBASE and SHOWBASE.D: a base that is not 0, smallest and most negative. -/
theorem witness_base : (1 : Int) ≠ 0 ∧ (-128 : Int) ≠ 0 := by decide
/-- OverlayClosedForm, FrameBytesAndTrace: the ends of the ranges. -/
theorem witness_OverlayClosedForm : 1 ≤ 4 ∧ 4 ≤ 4 ∧ 3 < 4 ∧ 7 < 8 := by decide
/-- Statements about a frame, fully acknowledged, at the last position that fits. -/
theorem witness_Frame : tAcked.cfg.wf = true ∧ tAcked.cfg.ackWait = false ∧
    (Instr.showdec (-5) 0 false 2 2).WellFormed tAcked.cfg ∧
    frameOf (.showdec (-5) 0 false 2 2) tAcked = some (2, 2) ∧ (2 : Byte).toNat % 4 + 2 ≤ 4 ∧
    tAcked.clkOe = false ∧ tAcked.dioOe = false ∧ everySampleZero tAcked (3 + 2) := by
  refine ⟨by decide, rfl, by decide, rfl, by decide, rfl, rfl, ?_⟩
  unfold everySampleZero; decide
/-- The same, past position 3 and under `ACK_WAIT` (DisplayShowsTheFrame). -/
theorem witness_Frame_past : let s := setAckWait true tAcked
    s.cfg.wf = true ∧ (Instr.setseg 1 2 3 4 2 3).WellFormed s.cfg ∧ frameOf (.setseg 1 2 3 4 2 3) s = some (2, 3) ∧
    4 < (3 : Byte).toNat % 4 + 2 ∧ s.clkOe = false ∧ s.dioOe = false ∧ everySampleZero s (3 + 2) := by
  refine ⟨by decide, by decide, rfl, by decide, rfl, rfl, ?_⟩
  unfold everySampleZero; decide
/-- Four digits, a stored form, and a missing acknowledgement (FrameOnTheWire). -/
theorem witness_FrameOnTheWire : (tState [true]).cfg.wf = true ∧ (tState [true]).cfg.ackWait = false ∧
    (Instr.showhexD 0xFF 5).WellFormed (tState [true]).cfg ∧ frameOf (.showhexD 0xFF 5) (tState [true]) = some (4, 5) ∧
    (tState [true]).clkOe = false ∧ (tState [true]).dioOe = false := by decide
theorem witness_AcknowledgementsChangeNoDecision :
    tState [true] = { tAcked with answers := (tState [true]).answers, sampleNo := (tState [true]).sampleNo } := rfl
/-- FormatterClosedForm, FormatterProperties: the least base magnitude, and value 42 of
base 10 with d = 2 digits in len = 3 positions. -/
theorem witness_FormatterProperties : 1 ≤ 1 ∧ 2 ≤ 10 ∧ 1 ≤ 2 ∧ 10 ^ (2 - 1) ≤ 42 ∧
    42 < 10 ^ 2 ∧ 2 ≤ 3 ∧ 2 < 3 ∧ 0 < 3 - 2 := by decide
/-- FormatterProperties (a) with no room, (e) and (f): 12345 in four digits; a minus glyph that is no glyph and not blank. -/
theorem witness_FormatterProperties_overflow : 10 ^ (5 - 1) ≤ 12345 ∧ 12345 < 10 ^ 5 ∧
    4 ≤ 5 ∧ 10 ^ 4 ≤ 12345 := by decide
theorem witness_FormatterProperties_minus : tCfg.minusGlyph ≠ 0 ∧ ∀ n, encodeDigit tCfg n ≠ tCfg.minusGlyph := by
  refine ⟨by decide, fun n => ?_⟩
  have h : ∀ k, k < 16 → tCfg.glyph.getD k 0 ≠ tCfg.minusGlyph := by decide
  have e : n &&& 0xF = n % 16 := Nat.and_two_pow_sub_one_eq_mod n 4
  rw [encodeDigit, e]
  exact h _ (Nat.mod_lt _ (by decide))
theorem witness_UnusualBases : 7 ≠ 0 ∧ 17 ≤ 17 ∧ 17 ≤ 20 ∧ 399 / 20 ^ (2 - 1 - 0) ≠ 0 := by decide
theorem witness_RefusedExactlyOutsideTheDomain : tAcked.cfg.wf = true ∧ (Instr.showbase 0 5 0 false 2 0).wf tAcked.cfg = false ∧
    (Instr.showbase 1 5 0 false 4 0).wf tAcked.cfg = true := by decide
theorem witness_RegisterWriters : ∃ t, exec (.setbrt 2 true) tAcked = .next t ∧ tAcked.cfg.wf = true ∧ 1 ≤ tAcked.fmtLen.toNat :=
  ⟨_, rfl, by decide, by decide⟩
theorem witness_MicroStepsMakeTheBigStep : (accept tAcked).busy = true := rfl
/-- StepKeepsTheInvariant: a ready state, and a busy state that a run under `ACK_WAIT` reaches. -/
theorem witness_StepKeepsTheInvariant : ∃ t, Inv tPresented ∧ step tPresented = .next t :=
  ⟨_, ⟨by decide, by decide, by decide, by decide, by decide, fun _ => rfl, by decide, by decide, by decide, by decide, by decide⟩, rfl⟩
theorem witness_StepKeepsTheInvariant_busy : ∃ t, Inv tWaiting ∧ step tWaiting = .next t :=
  ⟨_, ⟨by decide, by decide, by decide, by decide, by decide, by decide, fun _ => rfl, fun _ => rfl, fun _ => rfl,
    fun _ => rfl, by decide⟩, rfl⟩
/-- R85: the pseudo-command. -/
theorem test_assemble_clear : (assembleLine "  CLEAR".toList).map encode = some 0x4000000400000000 := by decide +kernel

end Sys2Proof.Machine
end

/-! ## What the block keeps: views of a state, commands in stages, the sequencer's rules

SUPPORT for the statements of the family 10_state.md. A command that is not refused first loads its operands, then (a SHOW
command) fills the digit buffer, and then performs one micro-step list; each stage writes its own registers and no others. -/

namespace Sys2Proof.Machine

/-! ### Two views of a state -/

/-- The state with everything that acceptance, a micro-step or a response writes put to a fixed value: two states with one
`stored` agree on the registers the sequencer does not write, on the host's words, the reset input and the parameters. -/
def State.stored (s : State) : State :=
  { s with
    clkOe := false, dioOe := false, lastAck := false, allAck := false, busy := false, upc := 0, tr := [], rsp := none,
    todo := [], smp := false, answers := [], sampleNo := 0 }

/-- The state with everything that filling the digit buffer writes put to a fixed value (R17 to R20). -/
def State.offBuffer (s : State) : State :=
  { s with dig := #v[0, 0, 0, 0], rem := 0, baseMag := 0, neg := false, msk := 0 }

@[simp] theorem accept_stored (s : State) : (accept s).stored = s.stored := rfl

@[simp] theorem respond_stored (st : Status) (d : Byte) (s : State) : (respond st d s).stored = s.stored := rfl

@[simp] theorem refuse_stored (s : State) : (refuse s).stored = s.stored := rfl

@[simp] theorem illegal_stored (s : State) : (illegal s).stored = s.stored := rfl

@[simp] theorem idle_stored (s : State) : (idle s).stored = s.stored := rfl

@[simp] theorem doOp_stored (op : MicroOp) (s : State) : (doOp op s).stored = s.stored := by
  cases op with
  | pin l d => cases l <;> rfl
  | delay => rfl
  | sample => simp only [doOp, sampleDio]; split <;> rfl
  | holdIfAcked => rfl
  | foldAck => rfl

/-- A list performed: its first entry, and then the wait with the list left to do, or the rest (R25, R98). -/
theorem perform_cons (op : MicroOp) (ops : List MicroOp) (s : State) :
    perform (op :: ops) s =
      if waits op (doOp op s) then launch (op :: ops) (doOp op s) else perform ops (doOp op s) := rfl

/-- Performing a micro-step list writes nothing that is stored, whether it ends or waits. -/
@[simp] theorem perform_stored (ops : List MicroOp) (s : State) : (perform ops s).stored = s.stored := by
  induction ops generalizing s with
  | nil => rfl
  | cons op ops ih =>
    rw [perform_cons]
    split
    · exact doOp_stored op s
    · rw [ih, doOp_stored]

@[simp] theorem formatNumber_offBuffer (bmag : Nat) (neg : Bool) (value : Nat) (lz : Bool) (len : Nat) (s : State) :
    (formatNumber bmag neg value lz len s).offBuffer = s.offBuffer := by
  simp only [formatNumber]
  split
  · simp only [formatZero, blankDigits_eq]; rfl
  · simp only [formatLoop_eq]; rfl

@[simp] theorem overlayLoop_offBuffer (len : Nat) (s : State) : (overlayLoop len s).offBuffer = s.offBuffer := by
  induction len with
  | zero => rfl
  | succ n ih => exact (rfl : _ = (overlayLoop n s).offBuffer).trans ih

@[simp] theorem overlayDots_offBuffer (len : Nat) (mask : Byte) (s : State) :
    (overlayDots len mask s).offBuffer = s.offBuffer := overlayLoop_offBuffer len _

/-- Steps 1 to 4 of `show_core` write the buffer and the working registers only, for any digit count (R132). -/
@[simp] theorem fillBuffer_offBuffer (base : Int) (value : Nat) (dots : Byte) (lz : Bool) (len : Nat) (s : State) :
    (fillBuffer base value dots lz len s).offBuffer = s.offBuffer := by
  simp only [fillBuffer, overlayDots_offBuffer, formatNumber_offBuffer]; rfl

@[simp] theorem loadDigits_offBuffer (segs : Vector Byte 4) (len : Nat) (s : State) :
    (loadDigits segs len s).offBuffer = s.offBuffer := by rw [loadDigits_eq]; rfl

/-! ### A command in stages -/

/-- The signed base and the value that a SHOW command formats (R133 to R138); none for the other commands. -/
def shownNumber : Instr → Option (Int × Nat)
  | .showbase base value _ _ _ _ => some (base, value)
  | .showdec num _ _ _ _ => some (decimalBase num, decimalValue num)
  | .showhex value _ _ _ _ => some (16, value)
  | .showbaseD base value _ => some (base, value)
  | .showdecD num _ => some (decimalBase num, decimalValue num)
  | .showhexD value _ => some (16, value)
  | _ => none

/-- The first stage: the operands that a command keeps in registers (R112, R113, R115, R133). -/
def loadOperands (i : Instr) (s : State) : State :=
  match i with
  | .setseg seg0 seg1 seg2 seg3 len _ => loadDigits #v[seg0, seg1, seg2, seg3] len.toNat s
  | .setbrt level on => { s with bright := packBright level on }
  | .setfmt len lz dots => writeFormat len lz dots s
  | .showbase _ _ dots lz len _ => writeFormat len lz dots s
  | .showdec _ dots lz len _ => writeFormat len lz dots s
  | .showhex _ dots lz len _ => writeFormat len lz dots s
  | _ => s

/-- The second stage: a SHOW command fills the digit buffer by the format fields as they stand (R132, R136). -/
def fillShown (i : Instr) (s : State) : State :=
  match shownNumber i with
  | none => s
  | some (base, value) => fillBuffer base value s.fmtDots s.fmtLz s.fmtLen.toNat s

/-- The state in which an accepted command begins its micro-steps. -/
def prepare (i : Instr) (s : State) : State := fillShown i (loadOperands i (accept s))

/-- The third stage: the micro-step list of a command (R25), in the state in which it begins. -/
def microOps (i : Instr) (s : State) : List MicroOp :=
  match i with
  | .start => startOps
  | .stop => stopOps
  | .wrbyte data => writeByteOps data
  | .encode _ => []
  | .setseg _ _ _ _ len pos => setSegmentsOps len.toNat pos s
  | .setbrt _ _ => []
  | .setfmt _ _ _ => []
  | .showbase _ _ _ _ _ pos => setSegmentsOps s.fmtLen.toNat pos s
  | .showdec _ _ _ _ pos => setSegmentsOps s.fmtLen.toNat pos s
  | .showhex _ _ _ _ pos => setSegmentsOps s.fmtLen.toNat pos s
  | .showbaseD _ _ pos => setSegmentsOps s.fmtLen.toNat pos s
  | .showdecD _ pos => setSegmentsOps s.fmtLen.toNat pos s
  | .showhexD _ pos => setSegmentsOps s.fmtLen.toNat pos s

/-- What performing a command can do: it is refused, or it is ENCODE and answers a glyph, or its micro-steps are performed. -/
inductive ExecCases (i : Instr) (s : State) : State → Prop where
  | refused (hwf : i.wf s.cfg = false) : ExecCases i s (refuse s)
  | encoded (d : Byte) (hi : i = .encode d) : ExecCases i s (respond .ok (encodeDigit s.cfg d.toNat) (accept s))
  | performed (hwf : i.wf s.cfg = true) : ExecCases i s (perform (microOps i (prepare i s)) (prepare i s))

/-- `show_core` by the format fields as they stand: the buffer is filled, then the frame's micro-steps are performed from it. -/
theorem showCore_eq_perform (base : Int) (value : Nat) (pos : Byte) (s f : State)
    (hf : f = fillBuffer base value s.fmtDots s.fmtLz s.fmtLen.toNat s) :
    showCore base value s.fmtDots s.fmtLz s.fmtLen.toNat pos s = perform (setSegmentsOps f.fmtLen.toNat pos f) f := by
  have hlen : f.fmtLen = s.fmtLen := by subst hf; exact (congrArg State.fmtLen (fillBuffer_offBuffer ..) :)
  rw [hlen, hf]
  rfl

/-- The explicit form is performed when its operands are admitted, else refused (R133). -/
theorem showExplicit_eq (base : Int) (value : Nat) (dots : Byte) (lz : Bool) (len pos : Byte) (s : State) :
    showExplicit base value dots lz len pos s =
      if baseAdmitted base && lenAdmitted s.cfg len then
        showCore base value (writeFormat len lz dots (accept s)).fmtDots (writeFormat len lz dots (accept s)).fmtLz
          (writeFormat len lz dots (accept s)).fmtLen.toNat pos (writeFormat len lz dots (accept s))
      else refuse s := by
  rw [showExplicit, lenRefused_eq, baseRefused_eq]
  cases baseAdmitted base <;> cases lenAdmitted s.cfg len <;> simp

/-- The stored form is performed when its base is admitted, else refused (R136). -/
theorem showStored_eq (base : Int) (value : Nat) (pos : Byte) (s : State) :
    showStored base value pos s =
      if baseAdmitted base then
        showCore base value (accept s).fmtDots (accept s).fmtLz (accept s).fmtLen.toNat pos (accept s)
      else refuse s := by
  rw [showStored, baseRefused_eq]
  cases baseAdmitted base <;> simp

theorem baseAdmitted_decimalBase (num : Int) : baseAdmitted (decimalBase num) = true := by
  simpa [baseRefused_eq] using decimalBase_admitted num

/-- A command other than ENCODE is performed when its operands are admitted, else refused (R86). -/
theorem exec_eq {i : Instr} (hi : ∀ d, i ≠ .encode d) (s : State) :
    exec i s = .next (if i.wf s.cfg then perform (microOps i (prepare i s)) (prepare i s) else refuse s) := by
  cases i with
  | start => rw [if_pos (by rfl)]; rfl
  | stop => rw [if_pos (by rfl)]; rfl
  | wrbyte data => rw [if_pos (by rfl)]; rfl
  | encode data => exact absurd rfl (hi data)
  | setbrt level on => rw [if_pos (by rfl)]; rfl
  | setseg seg0 seg1 seg2 seg3 len pos =>
    have hwf : Instr.wf s.cfg (.setseg seg0 seg1 seg2 seg3 len pos) = lenAdmitted s.cfg len := rfl
    simp only [exec, execSetseg, lenRefused_eq, hwf]
    cases lenAdmitted s.cfg len <;> rfl
  | setfmt len lz dots =>
    have hwf : Instr.wf s.cfg (.setfmt len lz dots) = lenAdmitted s.cfg len := rfl
    simp only [exec, execSetfmt, lenRefused_eq, hwf]
    cases lenAdmitted s.cfg len <;> rfl
  | showbase base value dots lz len pos =>
    simp only [exec, execShowbase, showExplicit_eq, showCore_eq_perform _ _ _ _ _ rfl]; rfl
  | showdec num dots lz len pos =>
    simp only [exec, execShowdec, showExplicit_eq, showCore_eq_perform _ _ _ _ _ rfl, baseAdmitted_decimalBase]; rfl
  | showhex value dots lz len pos =>
    simp only [exec, execShowhex, showExplicit_eq, showCore_eq_perform _ _ _ _ _ rfl]; rfl
  | showbaseD base value pos =>
    simp only [exec, execShowbaseD, showStored_eq, showCore_eq_perform _ _ _ _ _ rfl]; rfl
  | showdecD num pos =>
    simp only [exec, execShowdecD, showStored_eq, showCore_eq_perform _ _ _ _ _ rfl, baseAdmitted_decimalBase]; rfl
  | showhexD value pos =>
    simp only [exec, execShowhexD, showStored_eq, showCore_eq_perform _ _ _ _ _ rfl]; rfl

/-- Every command answers a next state, in one of three ways. -/
theorem exec_cases (i : Instr) (s : State) : ∃ t, exec i s = .next t ∧ ExecCases i s t := by
  by_cases hi : ∃ d, i = .encode d
  · obtain ⟨d, rfl⟩ := hi
    exact ⟨_, rfl, .encoded d rfl⟩
  · have he := exec_eq (fun d hd => hi ⟨d, hd⟩) s
    by_cases hwf : i.wf s.cfg = true
    · exact ⟨_, by rw [he, if_pos hwf], .performed hwf⟩
    · exact ⟨_, by rw [he, if_neg hwf], .refused (Bool.eq_false_of_not_eq_true hwf)⟩

/-- The same, from a given next state. -/
theorem execCases_of_exec {i : Instr} {s t : State} (h : exec i s = .next t) : ExecCases i s t := by
  obtain ⟨u, hu, hc⟩ := exec_cases i s
  rw [h] at hu
  cases hu
  exact hc

/-- Filling the buffer leaves every other register, the ports and the outside world alone. -/
theorem fillShown_offBuffer (i : Instr) (s : State) : (fillShown i s).offBuffer = s.offBuffer := by
  unfold fillShown
  split
  · rfl
  · exact fillBuffer_offBuffer ..

/-- The state with everything that the first two stages of a command write put to a fixed value. -/
def State.offOperands (s : State) : State :=
  { s.offBuffer with bright := 0, fmtLen := 0, fmtLz := false, fmtDots := 0 }

theorem loadOperands_offOperands (i : Instr) (s : State) : (loadOperands i s).offOperands = s.offOperands := by
  cases i with
  | setseg seg0 seg1 seg2 seg3 len pos =>
    exact congrArg (fun t : State => { t with bright := 0, fmtLen := 0, fmtLz := false, fmtDots := 0 })
      (loadDigits_offBuffer ..)
  | _ => rfl

theorem prepare_offOperands (i : Instr) (s : State) : (prepare i s).offOperands = (accept s).offOperands :=
  (congrArg State.offOperands (fillShown_offBuffer i _)).trans (loadOperands_offOperands i _)

@[simp] theorem prepare_clkOe (i : Instr) (s : State) : (prepare i s).clkOe = s.clkOe :=
  (congrArg State.clkOe (prepare_offOperands i s) :)
@[simp] theorem prepare_lastAck (i : Instr) (s : State) : (prepare i s).lastAck = s.lastAck :=
  (congrArg State.lastAck (prepare_offOperands i s) :)
@[simp] theorem prepare_busy (i : Instr) (s : State) : (prepare i s).busy = true :=
  (congrArg State.busy (prepare_offOperands i s) :)
@[simp] theorem prepare_upc (i : Instr) (s : State) : (prepare i s).upc = 0 :=
  (congrArg State.upc (prepare_offOperands i s) :)
@[simp] theorem prepare_tr (i : Instr) (s : State) : (prepare i s).tr = s.tr :=
  (congrArg State.tr (prepare_offOperands i s) :)
@[simp] theorem prepare_rsp (i : Instr) (s : State) : (prepare i s).rsp = none :=
  (congrArg State.rsp (prepare_offOperands i s) :)
@[simp] theorem prepare_cmdQueue (i : Instr) (s : State) : (prepare i s).cmdQueue = s.cmdQueue :=
  (congrArg State.cmdQueue (prepare_offOperands i s) :)
@[simp] theorem prepare_resetIn (i : Instr) (s : State) : (prepare i s).resetIn = s.resetIn :=
  (congrArg State.resetIn (prepare_offOperands i s) :)
@[simp] theorem prepare_answers (i : Instr) (s : State) : (prepare i s).answers = s.answers :=
  (congrArg State.answers (prepare_offOperands i s) :)
@[simp] theorem prepare_resetNo (i : Instr) (s : State) : (prepare i s).resetNo = s.resetNo :=
  (congrArg State.resetNo (prepare_offOperands i s) :)
@[simp] theorem prepare_cfg (i : Instr) (s : State) : (prepare i s).cfg = s.cfg :=
  (congrArg State.cfg (prepare_offOperands i s) :)

end Sys2Proof.Machine

/-! ## The sequencer: events counted, single micro-steps, the wait -/

namespace Sys2Proof.Machine

/-! ### Events and `UPC` -/

/-- One entry of a micro-step list appends some events and counts each in `UPC` (R8, R25). -/
theorem doOp_counts (op : MicroOp) (s : State) :
    ∃ es, (doOp op s).tr = s.tr ++ es ∧ (doOp op s).upc = s.upc + es.length := by
  cases op with
  | pin l d => cases l <;> exact ⟨_, rfl, rfl⟩
  | delay => exact ⟨_, rfl, rfl⟩
  | sample => simp only [doOp, sampleDio]; split <;> exact ⟨_, rfl, rfl⟩
  | holdIfAcked =>
    cases h : s.smp
    · exact ⟨[.d0], by simp [doOp, holdIfAcked, h], by simp [doOp, holdIfAcked, h]⟩
    · exact ⟨[], by simp [doOp, holdIfAcked, h], by simp [doOp, holdIfAcked, h]⟩
  | foldAck => exact ⟨[], (List.append_nil _).symm, rfl⟩

/-- A list performed to its end or to its wait: every event counts in `UPC`, and so does the response if there is one. -/
theorem perform_counts (ops : List MicroOp) {s : State} (hb : s.busy = true) :
    ∃ es, (perform ops s).tr = s.tr ++ es ∧
      (perform ops s).upc = s.upc + es.length + (if (perform ops s).busy then 0 else 1) := by
  induction ops generalizing s with
  | nil => exact ⟨[], (List.append_nil _).symm, rfl⟩
  | cons op ops ih =>
    have hb' : (doOp op s).busy = true := (doOp_busy op s).trans hb
    obtain ⟨es, htr, hupc⟩ := doOp_counts op s
    rw [perform_cons]
    split
    · exact ⟨es, htr, hupc.trans (by rw [if_pos (show (launch (op :: ops) (doOp op s)).busy = true from hb')]; rfl)⟩
    · obtain ⟨es', htr', hupc'⟩ := ih hb'
      refine ⟨es ++ es', by rw [htr', htr, List.append_assoc], ?_⟩
      rw [hupc', hupc, List.length_append, Nat.add_assoc s.upc]

/-- Settles O49, by `exec_cases`: a refused command and ENCODE record nothing, the others perform their list. -/
theorem microStepCount : Obligations.MicroStepCount := by
  intro i s
  obtain ⟨t, ht, hc⟩ := exec_cases i s
  cases hc with
  | refused _ => exact ⟨_, [], ht, (List.append_nil _).symm, rfl⟩
  | encoded d _ => exact ⟨_, [], ht, (List.append_nil _).symm, rfl⟩
  | performed _ =>
    obtain ⟨es, htr, hupc⟩ := perform_counts (microOps i (prepare i s)) (prepare_busy i s)
    exact ⟨_, es, ht, by rw [htr, prepare_tr], by rw [hupc, prepare_upc, Nat.zero_add]⟩

/-! ### Single micro-steps -/

theorem doOp_launch (op : MicroOp) (l : List MicroOp) (s : State) : doOp op (launch l s) = launch l (doOp op s) :=
  doOp_withTodo op l s

theorem waits_launch (op : MicroOp) (l : List MicroOp) (s : State) : waits op (launch l s) = waits op s := by
  cases op <;> rfl

/-- One micro-step of a command in progress whose list is not empty. -/
theorem micro_launch_cons (op : MicroOp) (ops : List MicroOp) {s : State} (hb : s.busy = true) :
    micro (launch (op :: ops) s) =
      if waits op (doOp op s) then launch (op :: ops) (doOp op s) else launch ops (doOp op s) := by
  rw [micro, if_pos (show (launch (op :: ops) s).busy = true from hb)]
  simp only [show (launch (op :: ops) s).todo = op :: ops from rfl, doOp_launch, waits_launch]
  rfl

/-- Settles O50, by induction on the list: each entry is one micro-step, the response is the last; a wait stops the count. -/
theorem microStepsMakeTheBigStep : Obligations.MicroStepsMakeTheBigStep := by
  intro ops
  induction ops with
  | nil =>
    intro s hb
    exact ⟨1, by rw [microRun, microRun, micro, if_pos (show (launch [] s).busy = true from hb)]; rfl⟩
  | cons op ops ih =>
    intro s hb
    cases hw : waits op (doOp op s)
    · obtain ⟨n, hn⟩ := ih (doOp op s) ((doOp_busy op s).trans hb)
      exact ⟨n + 1, by rw [microRun, micro_launch_cons op ops hb, perform_cons, hw]; exact hn⟩
    · exact ⟨1, by rw [microRun, micro_launch_cons op ops hb, perform_cons, hw]; rfl⟩

/-- Settles O9: a step of a busy block goes on with the list, which writes nothing that is stored. -/
theorem busyBlockTakesNoCommand : Obligations.BusyBlockTakesNoCommand := by
  intro s hr hb
  exact ⟨_, step_busy hr hb, (congrArg State.cmdQueue (perform_stored s.todo s) :), by rw [cmdReady, hb]; rfl⟩

/-! ### The data pin before a sample -/

/-- A list that samples only after its own release of the data pin does so also when the pin was released before it. -/
theorem samplesReleased_of_driven {ops : List MicroOp} (h : samplesReleased false ops = true) (rel : Bool) :
    samplesReleased rel ops = true := by
  induction ops with
  | nil => rfl
  | cons op ops ih =>
    cases op with
    | pin l d =>
      cases l
      · exact ih h
      · cases d <;> exact h
    | delay => exact ih h
    | sample => exact absurd h Bool.false_ne_true
    | holdIfAcked => exact h
    | foldAck => exact ih h

theorem samplesReleased_append {xs ys : List MicroOp} {rel : Bool} (hx : samplesReleased rel xs = true)
    (hy : ∀ rel, samplesReleased rel ys = true) : samplesReleased rel (xs ++ ys) = true := by
  induction xs generalizing rel with
  | nil => exact hy rel
  | cons op xs ih =>
    cases op with
    | pin l d =>
      cases l
      · exact ih hx
      · cases d <;> exact ih hx
    | delay => exact ih hx
    | sample =>
      obtain ⟨hrel, hxs⟩ := Bool.and_eq_true_iff.mp hx
      exact Bool.and_eq_true_iff.mpr ⟨hrel, ih hxs⟩
    | holdIfAcked => exact ih hx
    | foldAck => exact ih hx

theorem doOp_sample_dioOe (s : State) : (doOp .sample s).dioOe = s.dioOe := by
  simp only [doOp, sampleDio]; split <;> rfl

/-- After one entry the rest of the list still samples with the data pin released. -/
theorem samplesReleased_doOp {op : MicroOp} {ops : List MicroOp} {s : State}
    (h : samplesReleased (!s.dioOe) (op :: ops) = true) : samplesReleased (!(doOp op s).dioOe) ops = true := by
  cases op with
  | pin l d =>
    cases l
    · exact h
    · cases d <;> exact h
  | delay => exact h
  | sample =>
    obtain ⟨hrel, hops⟩ := Bool.and_eq_true_iff.mp h
    rw [doOp_sample_dioOe]; exact hops
  | holdIfAcked => exact samplesReleased_of_driven h _
  | foldAck => exact h

theorem writeByteOps_released (b : Byte) (rel : Bool) : samplesReleased rel (writeByteOps b) = true := by
  have hslot : ∀ (v : Bool) (rel : Bool), samplesReleased rel (bitSlotOps v) = true := by decide
  simp only [writeByteOps, List.append_assoc]
  iterate 8 refine samplesReleased_append (hslot _ _) fun rel => ?_
  rfl

theorem writeBytes_released (bs : List Byte) (rel : Bool) : samplesReleased rel (bs.flatMap writeByteOps) = true := by
  induction bs generalizing rel with
  | nil => rfl
  | cons b bs ih => exact samplesReleased_append (writeByteOps_released b rel) ih

theorem transactionOps_released (bs : List Byte) (rel : Bool) : samplesReleased rel (transactionOps bs) = true :=
  samplesReleased_append (samplesReleased_append rfl (writeBytes_released bs)) fun _ => rfl

theorem setSegmentsOps_released (len : Nat) (pos : Byte) (s : State) (rel : Bool) :
    samplesReleased rel (setSegmentsOps len pos s) = true := by
  rw [setSegmentsOps_eq]
  induction frameBytes len pos s generalizing rel with
  | nil => rfl
  | cons bs rest ih => exact samplesReleased_append (transactionOps_released bs rel) ih

/-- Whatever the pins were, every sample of a command is performed with the data pin released (R43). -/
theorem microOps_released (i : Instr) (s : State) (rel : Bool) : samplesReleased rel (microOps i s) = true := by
  cases i with
  | start => rfl
  | stop => rfl
  | wrbyte data => exact writeByteOps_released data rel
  | encode _ => rfl
  | setbrt _ _ => rfl
  | setfmt _ _ _ => rfl
  | _ => exact setSegmentsOps_released ..

end Sys2Proof.Machine

/-! ## The invariant: every step keeps it -/

namespace Sys2Proof.Machine

/-! ### The two halves of `Inv` -/

/-- The half of `Inv` that speaks of stored registers and parameters (R5, R14, R18, R131). -/
structure StoredInv (s : State) : Prop where
  cfg_wf : s.cfg.wf = true
  fmtLen_ge : 1 ≤ s.fmtLen.toNat
  fmtLen_le : s.fmtLen.toNat ≤ 4
  rem_lt : s.rem < 2 ^ s.cfg.valueW
  baseMag_le : s.baseMag ≤ 2 ^ (s.cfg.baseW - 1)

/-- The half of `Inv` that speaks of the sequencer between two steps (R24, R43, R98). -/
structure SequencerInv (s : State) : Prop where
  idle_done : s.busy = false → s.todo = []
  busy_ackWait : s.busy = true → s.cfg.ackWait = true
  busy_sample : s.busy = true → s.todo.head? = some .sample
  busy_smp : s.busy = true → s.smp = true
  busy_silent : s.busy = true → s.rsp = none
  todo_released : samplesReleased (!s.dioOe) s.todo = true

theorem inv_iff {s : State} : Inv s ↔ StoredInv s ∧ SequencerInv s :=
  ⟨fun ⟨h1, h2, h3, h4, h5, h6, h7, h8, h9, h10, h11⟩ => ⟨⟨h1, h2, h3, h4, h5⟩, ⟨h6, h7, h8, h9, h10, h11⟩⟩,
   fun ⟨⟨h1, h2, h3, h4, h5⟩, ⟨h6, h7, h8, h9, h10, h11⟩⟩ => ⟨h1, h2, h3, h4, h5, h6, h7, h8, h9, h10, h11⟩⟩

/-- The stored half depends on the parameters and three registers only. -/
theorem StoredInv.of_eq {s t : State} (hs : StoredInv s) (hcfg : t.cfg = s.cfg) (hlen : t.fmtLen = s.fmtLen)
    (hrem : t.rem = s.rem) (hmag : t.baseMag = s.baseMag) : StoredInv t := by
  obtain ⟨h1, h2, h3, h4, h5⟩ := hs
  rw [← hcfg] at h1 h4 h5
  exact ⟨h1, hlen ▸ h2, hlen ▸ h3, hrem ▸ h4, hmag ▸ h5⟩

/-- All four are stored. -/
theorem StoredInv.congr {s t : State} (h : t.stored = s.stored) (hs : StoredInv s) : StoredInv t :=
  hs.of_eq (congrArg State.cfg h :) (congrArg State.fmtLen h :) (congrArg State.rem h :) (congrArg State.baseMag h :)

/-- A block that is not busy and has nothing left to do is between two commands. -/
theorem SequencerInv.of_idle {s : State} (hb : s.busy = false) (ht : s.todo = []) : SequencerInv s where
  idle_done _ := ht
  busy_ackWait h := absurd (hb ▸ h) Bool.false_ne_true
  busy_sample h := absurd (hb ▸ h) Bool.false_ne_true
  busy_smp h := absurd (hb ▸ h) Bool.false_ne_true
  busy_silent h := absurd (hb ▸ h) Bool.false_ne_true
  todo_released := by rw [ht]; rfl

/-! ### The sequencer's half -/

theorem doOp_rsp (op : MicroOp) (s : State) : (doOp op s).rsp = s.rsp := by
  cases op with
  | pin l d => cases l <;> rfl
  | delay => rfl
  | sample => simp only [doOp, sampleDio]; split <;> rfl
  | holdIfAcked => rfl
  | foldAck => rfl

/-- Only a sample that read 1 under `ACK_WAIT` makes the sequencer wait (R98). -/
theorem waits_iff {op : MicroOp} {s : State} : waits op s = true ↔ op = .sample ∧ s.cfg.ackWait = true ∧ s.smp = true := by
  cases op <;> simp [waits]

/-- A list that samples with the data pin released ends with the response, or waits at one of its samples. -/
theorem perform_sequencerInv {ops : List MicroOp} {s : State} (hr : s.rsp = none)
    (hrel : samplesReleased (!s.dioOe) ops = true) (hb : s.busy = true) : SequencerInv (perform ops s) := by
  induction ops generalizing s with
  | nil => exact .of_idle rfl rfl
  | cons op ops ih =>
    have hb' : (doOp op s).busy = true := (doOp_busy op s).trans hb
    have hr' : (doOp op s).rsp = none := (doOp_rsp op s).trans hr
    rw [perform_cons]
    split
    · next hw =>
      obtain ⟨rfl, hack, hsmp⟩ := waits_iff.mp hw
      obtain ⟨hd, _⟩ := Bool.and_eq_true_iff.mp hrel
      exact {
        idle_done := fun h => absurd (hb'.symm.trans h) (by decide)
        busy_ackWait := fun _ => hack
        busy_sample := fun _ => rfl
        busy_smp := fun _ => hsmp
        busy_silent := fun _ => hr'
        todo_released := Bool.and_eq_true_iff.mpr ⟨by
          simpa [launch, doOp_sample_dioOe] using hd, samplesReleased_doOp hrel⟩ }
    · exact ih hr' (samplesReleased_doOp hrel) hb'

/-! ### The stored half: operands within their widths -/

theorem maxDigits_of_wf {c : Config} (h : c.wf = true) : c.maxDigits = 4 := by
  simp only [Config.wf, Bool.and_eq_true, decide_eq_true_eq] at h; omega

theorem valueW_of_wf {c : Config} (h : c.wf = true) : 1 ≤ c.valueW := by
  simp only [Config.wf, Bool.and_eq_true, decide_eq_true_eq] at h; omega

/-- `BASE_W` holds the bases 10 and 16 of SHOWDEC and SHOWHEX as magnitudes (R134, R135, log 1). -/
theorem sixteen_le_baseMag_of_wf {c : Config} (h : c.wf = true) : 16 ≤ 2 ^ (c.baseW - 1) := by
  simp only [Config.wf, Bool.and_eq_true, decide_eq_true_eq] at h
  exact Nat.pow_le_pow_right (n := 2) (by decide) (show 4 ≤ c.baseW - 1 by omega)

theorem fmtLenReset_of_wf {c : Config} (h : c.wf = true) : 1 ≤ c.fmtLenReset.toNat ∧ c.fmtLenReset.toNat ≤ 4 := by
  simp only [Config.wf, Bool.and_eq_true, decide_eq_true_eq] at h; omega

/-- What the formatter gets from a command that fits the block's widths is in the ranges of `BASE_MAG` and `REM`. -/
theorem shownNumber_fits {c : Config} (hc : c.wf = true) {i : Instr} (hi : i.fits c = true) {base : Int} {value : Nat}
    (h : shownNumber i = some (base, value)) : absNat base ≤ 2 ^ (c.baseW - 1) ∧ value < 2 ^ c.valueW := by
  have h16 := sixteen_le_baseMag_of_wf hc
  have hdec : ∀ num : Int, absNat (decimalBase num) ≤ 2 ^ (c.baseW - 1) := fun num => by
    have : absNat (decimalBase num) = 10 := by unfold decimalBase; split <;> rfl
    omega
  have hunsigned : ∀ v : Nat, fitsUnsigned c.valueW v = true → v < 2 ^ c.valueW := fun v => of_decide_eq_true
  have hnum : ∀ num : Int, fitsSigned c.valueW num = true → decimalValue num < 2 ^ c.valueW := fun num hn =>
    hunsigned _ (decimalValue_fits (valueW_of_wf hc) hn)
  cases i <;> cases h
  case showbase =>
    obtain ⟨hb, hv⟩ := Bool.and_eq_true_iff.mp hi
    exact ⟨absNat_le hb, hunsigned _ hv⟩
  case showdec => exact ⟨hdec _, hnum _ hi⟩
  case showhex => exact ⟨h16, hunsigned _ hi⟩
  case showbaseD =>
    obtain ⟨hb, hv⟩ := Bool.and_eq_true_iff.mp hi
    exact ⟨absNat_le hb, hunsigned _ hv⟩
  case showdecD => exact ⟨hdec _, hnum _ hi⟩
  case showhexD => exact ⟨h16, hunsigned _ hi⟩

theorem remAfter_le (c : Config) (bmag value : Nat) (lz : Bool) (len old : Nat) :
    remAfter c bmag value lz len old ≤ max value old := by
  have hdiv : value / bmag ^ len ≤ value := Nat.div_le_self ..
  unfold remAfter
  split_ifs <;> omega

/-- Filling the buffer keeps the stored half for a number within the widths. -/
theorem fillBuffer_storedInv {base : Int} {value : Nat} {dots : Byte} {lz : Bool} {s : State} (hs : StoredInv s)
    (hb : absNat base ≤ 2 ^ (s.cfg.baseW - 1)) (hv : value < 2 ^ s.cfg.valueW) :
    StoredInv (fillBuffer base value dots lz s.fmtLen.toNat s) := by
  rw [fillBuffer_eq _ _ _ _ _ hs.fmtLen_ge hs.fmtLen_le]
  exact ⟨hs.cfg_wf, hs.fmtLen_ge, hs.fmtLen_le, (remAfter_le ..).trans_lt (max_lt hv hs.rem_lt), hb⟩

theorem writeFormat_storedInv {len : Byte} {lz : Bool} {dots : Byte} {s : State} (hs : StoredInv s)
    (hl : lenAdmitted s.cfg len = true) : StoredInv (writeFormat len lz dots s) := by
  have hm := maxDigits_of_wf hs.cfg_wf
  have hlen : (writeFormat len lz dots s).fmtLen.toNat = len.toNat := fmtLen_toNat hm hl
  simp only [lenAdmitted, Bool.and_eq_true, decide_eq_true_eq, hm] at hl
  exact ⟨hs.cfg_wf, hlen ▸ hl.1, hlen ▸ hl.2, hs.rem_lt, hs.baseMag_le⟩

theorem loadOperands_storedInv {i : Instr} {s : State} (hs : StoredInv s) (hwf : i.wf s.cfg = true) :
    StoredInv (loadOperands i s) := by
  cases i with
  | setseg seg0 seg1 seg2 seg3 len pos =>
    simp only [loadOperands, loadDigits_eq]
    exact hs.of_eq rfl rfl rfl rfl
  | setbrt level on => exact hs.of_eq rfl rfl rfl rfl
  | setfmt len lz dots => exact writeFormat_storedInv hs hwf
  | showbase base value dots lz len pos => exact writeFormat_storedInv hs (Bool.and_eq_true_iff.mp hwf).2
  | showdec num dots lz len pos => exact writeFormat_storedInv hs hwf
  | showhex value dots lz len pos => exact writeFormat_storedInv hs hwf
  | _ => exact hs

theorem loadOperands_cfg (i : Instr) (s : State) : (loadOperands i s).cfg = s.cfg :=
  (congrArg State.cfg (loadOperands_offOperands i s) :)

theorem prepare_storedInv {i : Instr} {s : State} (hs : StoredInv s) (hwf : i.wf s.cfg = true)
    (hfit : i.fits s.cfg = true) : StoredInv (prepare i s) := by
  have hload : StoredInv (loadOperands i (accept s)) := loadOperands_storedInv (hs.congr (accept_stored s)) hwf
  unfold prepare fillShown
  split
  · exact hload
  · next base value h =>
    obtain ⟨hb, hv⟩ := shownNumber_fits hs.cfg_wf hfit h
    exact fillBuffer_storedInv hload (by rwa [loadOperands_cfg]) (by rwa [loadOperands_cfg])

/-! ### Commands and steps -/

/-- A command of the block's widths keeps the stored half and ends or waits as the sequencer's half says. -/
theorem exec_inv {i : Instr} {s t : State} (hs : StoredInv s) (hfit : i.fits s.cfg = true) (h : exec i s = .next t) :
    Inv t := by
  refine inv_iff.mpr ?_
  cases execCases_of_exec h with
  | refused _ => exact ⟨hs.congr (refuse_stored s), .of_idle rfl rfl⟩
  | encoded d _ => exact ⟨hs.congr ((respond_stored ..).trans (accept_stored s)), .of_idle rfl rfl⟩
  | performed hwf =>
    exact ⟨(prepare_storedInv hs hwf hfit).congr (perform_stored _ _),
      perform_sequencerInv (prepare_rsp i s) (microOps_released ..) (prepare_busy i s)⟩

theorem fitsSigned_toInt {n : Nat} (v : BitVec (n + 1)) : fitsSigned (n + 1) v.toInt = true := by
  have hlo := BitVec.le_toInt v
  have hhi := BitVec.toInt_lt (x := v)
  simp only [Nat.add_sub_cancel] at hlo hhi
  simp [fitsSigned, hlo, hhi]

theorem fitsUnsigned_toNat {n : Nat} (v : BitVec n) : fitsUnsigned n v.toNat = true := decide_eq_true v.isLt

/-- The operands a word's fields hold fit the widths the word's layout is bound to (R74, R81). -/
theorem decodeFields_hasWord {op : Nat} {w : CmdWord} {i : Instr} (h : decodeFields op w = some i) : i.HasWord := by
  unfold decodeFields at h
  split at h <;> cases h <;> simp [Instr.HasWord, Instr.fitsWidths, fitsSigned_toInt, fitsUnsigned_toNat]

theorem decode_hasWord {w : CmdWord} {i : Instr} (h : decode w = .ok i) : i.HasWord := by
  unfold decode at h
  dsimp only at h
  split at h
  · cases h
  · next j hj =>
    split at h <;> cases h
    exact decodeFields_hasWord hj

/-- Whatever is presented and accepted keeps the invariant. -/
theorem runPresented_inv {p : Presented} {s t : State} (hs : StoredInv s) (h : runPresented p s = .next t) : Inv t := by
  cases p with
  | decoded i =>
    simp only [runPresented] at h
    split at h
    · exact exec_inv hs ‹_› h
    · cases h
  | word w =>
    simp only [runPresented] at h
    split at h
    · next hw =>
      simp only [Config.takesWords, Bool.and_eq_true, decide_eq_true_eq] at hw
      unfold runWord at h
      split at h
      · next i hd => exact exec_inv hs (by rw [Instr.fits, hw.1, hw.2]; exact decode_hasWord hd) h
      · cases h
        exact inv_iff.mpr ⟨hs.congr (illegal_stored s), .of_idle rfl rfl⟩
    · cases h

theorem applyReset_inv {s : State} (h : s.cfg.wf = true) : Inv (applyReset s) := by
  obtain ⟨hge, hle⟩ := fmtLenReset_of_wf h
  exact inv_iff.mpr ⟨⟨h, hge, hle, Nat.two_pow_pos _, Nat.zero_le _⟩, .of_idle rfl rfl⟩

/-- Settles O51, by the cases of a step: reset, a waiting command that goes on, an idle step, and what was presented. -/
theorem stepKeepsTheInvariant : Obligations.StepKeepsTheInvariant := by
  intro s t hinv h
  obtain ⟨hs, hq⟩ := inv_iff.mp hinv
  cases hr : s.resetIn with
  | true =>
    rw [step_reset hr] at h
    cases h
    exact applyReset_inv hs.cfg_wf
  | false =>
    cases hb : s.busy with
    | true =>
      rw [step_busy hr hb] at h
      cases h
      exact inv_iff.mpr ⟨hs.congr (perform_stored _ _), perform_sequencerInv (hq.busy_silent hb) hq.todo_released hb⟩
    | false =>
      cases hp : s.cmdQueue with
      | nil =>
        rw [step_idle hr hb hp] at h
        cases h
        exact inv_iff.mpr ⟨hs.congr (idle_stored s), .of_idle hb (hq.idle_done hb)⟩
      | cons p ps =>
        rw [step_presented hr hb hp] at h
        exact runPresented_inv (s := { s with cmdQueue := ps }) (hs.of_eq rfl rfl rfl rfl) h

end Sys2Proof.Machine

/-! ## Who writes each register (the "written by" column of R10) -/

namespace Sys2Proof.Machine

/-! ### What the first two stages write -/

/-- A command without a number to show is prepared when its operands are loaded. -/
theorem prepare_of_not_formats {i : Instr} (h : formats i = false) (s : State) :
    prepare i s = loadOperands i (accept s) := by
  cases i <;> cases h <;> rfl

/-- A SHOW command has a number to show. -/
theorem shownNumber_of_formats {i : Instr} (h : formats i = true) : ∃ base value, shownNumber i = some (base, value) := by
  cases i <;> cases h <;> exact ⟨_, _, rfl⟩

theorem prepare_bright {i : Instr} (h : ∀ level on, i ≠ .setbrt level on) (s : State) :
    (prepare i s).bright = s.bright := by
  refine (congrArg State.bright (fillShown_offBuffer i (loadOperands i (accept s))) :).trans ?_
  cases i with
  | setseg seg0 seg1 seg2 seg3 len pos => exact (congrArg State.bright (loadDigits_offBuffer ..) :)
  | setbrt level on => exact absurd rfl (h level on)
  | _ => rfl

/-- The format fields, read together (R14 to R16). -/
def State.format (s : State) : BitVec 3 × Bool × Byte := (s.fmtLen, s.fmtLz, s.fmtDots)

theorem prepare_format {i : Instr} (h : storesFormat i = false) (s : State) : (prepare i s).format = s.format := by
  refine (congrArg State.format (fillShown_offBuffer i (loadOperands i (accept s))) :).trans ?_
  cases i with
  | setseg seg0 seg1 seg2 seg3 len pos => exact (congrArg State.format (loadDigits_offBuffer ..) :)
  | setfmt len lz dots => cases h
  | showbase base value dots lz len pos => cases h
  | showdec num dots lz len pos => cases h
  | showhex value dots lz len pos => cases h
  | _ => rfl

/-- The working registers of the SHOW commands, read together (R18 to R20). -/
def State.working (s : State) : Nat × Nat × Bool × Byte := (s.rem, s.baseMag, s.neg, s.msk)

theorem prepare_working {i : Instr} (h : formats i = false) (s : State) : (prepare i s).working = s.working := by
  rw [prepare_of_not_formats h]
  cases i with
  | setseg seg0 seg1 seg2 seg3 len pos => simp only [loadOperands, loadDigits_eq]; rfl
  | _ => rfl

/-- A command that sends no frame loads no digit and shows no number. -/
theorem prepare_dig {i : Instr} {s : State} (h : frameOf i s = none) : (prepare i s).dig = s.dig := by
  cases i <;> cases h <;> rfl

/-! ### Digits at len and above (R17) -/

theorem readDig_of_four_le (s : State) {k : Nat} (hk : 4 ≤ k) : readDig s k = 0 := by
  rw [readDig, digit_getD, dif_neg (by omega)]

theorem readDig_loadDigits_of_le (segs : Vector Byte 4) {len k : Nat} (hk : len ≤ k) (s : State) :
    readDig (loadDigits segs len s) k = readDig s k := by
  by_cases h4 : k < 4
  · rw [readDig_eq _ h4, readDig_eq _ h4, loadDigits_eq, replaceDigits_getElem _ _ _ _ h4, if_neg (by omega)]
  · rw [readDig_of_four_le _ (by omega), readDig_of_four_le _ (by omega)]

/-- For a digit count that is not 0, of any size. -/
theorem readDig_fillBuffer_of_le (base : Int) (value : Nat) (dots : Byte) (lz : Bool) {len k : Nat} (hl : 1 ≤ len)
    (hk : len ≤ k) (s : State) : readDig (fillBuffer base value dots lz len s) k = readDig s k := by
  by_cases h4 : k < 4
  · rw [readDig_eq _ h4, readDig_eq _ h4, fillBuffer_eq _ _ _ _ _ hl (by omega), bufferEffect,
      replaceDigits_getElem _ _ _ _ h4, if_neg (by omega)]
  · rw [readDig_of_four_le _ (by omega), readDig_of_four_le _ (by omega)]

/-- A SHOW command that is not refused fills the buffer by the digit count of the frame it sends, which is not 0. -/
theorem fmtLen_loadOperands {i : Instr} {s : State} (hc : s.cfg.wf = true) (hl : 1 ≤ s.fmtLen.toNat)
    (hwf : i.wf s.cfg = true) (hf : formats i = true) {len : Nat} {pos : Byte} (h : frameOf i s = some (len, pos)) :
    (loadOperands i (accept s)).fmtLen.toNat = len ∧ 1 ≤ len := by
  have explicit : ∀ n : Byte, lenAdmitted s.cfg n = true → (n.setWidth 3).toNat = n.toNat ∧ 1 ≤ n.toNat := fun n hn =>
    ⟨fmtLen_toNat (maxDigits_of_wf hc) hn, of_decide_eq_true (Bool.and_eq_true_iff.mp hn).1⟩
  cases i <;> cases hf <;> cases h
  case showbase => exact explicit _ (Bool.and_eq_true_iff.mp hwf).2
  case showdec => exact explicit _ hwf
  case showhex => exact explicit _ hwf
  case showbaseD => exact ⟨rfl, hl⟩
  case showdecD => exact ⟨rfl, hl⟩
  case showhexD => exact ⟨rfl, hl⟩

theorem readDig_prepare_of_le {i : Instr} {s : State} (hc : s.cfg.wf = true) (hl : 1 ≤ s.fmtLen.toNat)
    (hwf : i.wf s.cfg = true) {len k : Nat} {pos : Byte} (h : frameOf i s = some (len, pos)) (hk : len ≤ k) :
    readDig (prepare i s) k = readDig s k := by
  cases hf : formats i with
  | false =>
    cases i <;> cases hf <;> cases h
    exact readDig_loadDigits_of_le _ hk (accept s)
  | true =>
    obtain ⟨hlen, hpos⟩ := fmtLen_loadOperands hc hl hwf hf h
    obtain ⟨base, value, hn⟩ := shownNumber_of_formats hf
    have hdig : (loadOperands i (accept s)).dig = s.dig := by cases i <;> cases hf <;> rfl
    simp only [prepare, fillShown, hn, hlen]
    rw [readDig_fillBuffer_of_le _ _ _ _ hpos hk, readDig, hdig, readDig]

/-! ### What a command writes -/

/-- What is stored, and kept by the first two stages, is kept by the command. -/
theorem ExecCases.keeps {i : Instr} {s t : State} (h : ExecCases i s t) {α : Type} (f : State → α)
    (hf : ∀ u : State, f u.stored = f u) (hp : i.wf s.cfg = true → f (prepare i s) = f s) : f t = f s := by
  have of_stored : ∀ {u : State}, t.stored = u.stored → f t = f u := fun hu => by rw [← hf, hu, hf]
  cases h with
  | refused _ => exact of_stored (refuse_stored s)
  | encoded d _ => exact of_stored ((respond_stored ..).trans (accept_stored s))
  | performed hwf => exact (of_stored (perform_stored _ _)).trans (hp hwf)

/-- Only a command that writes a byte takes answers and writes `LAST_ACK` (R22, R43). -/
theorem ExecCases.keeps_ack {i : Instr} {s t : State} (h : ExecCases i s t) (hb : bytesWritten i s = 0) :
    t.lastAck = s.lastAck ∧ t.answers = s.answers := by
  cases h with
  | refused _ => exact ⟨rfl, rfl⟩
  | encoded d _ => exact ⟨rfl, rfl⟩
  | performed _ =>
    cases i with
    | start => exact ⟨rfl, rfl⟩
    | stop => exact ⟨rfl, rfl⟩
    | encode d => exact ⟨rfl, rfl⟩
    | setbrt level on => exact ⟨rfl, rfl⟩
    | setfmt len lz dots => exact ⟨rfl, rfl⟩
    | wrbyte d => exact absurd hb Nat.one_ne_zero
    | _ => exact absurd hb (by simp [bytesWritten, frameOf])

/-- START drives the data pin and leaves the clock pin (R91). -/
theorem ExecCases.keeps_clkOe {s t : State} (h : ExecCases .start s t) : t.clkOe = s.clkOe := by
  cases h with
  | refused _ => rfl
  | encoded d _ => rfl
  | performed _ => rfl

/-- Settles O48: what a command's first two stages keep, the command keeps, register by register (`ExecCases.keeps`). -/
theorem registerWriters : Obligations.RegisterWriters := by
  intro i s t hc hl h
  have hx := execCases_of_exec h
  refine ⟨fun hi => ?bright, fun hi => ?format, fun hi => ?noFrame, fun len pos k hi hk => ?digits, fun hi => ?working,
    fun hi => ?clock, hx.keeps_ack, ?cfg, ?cmdQueue, ?resetIn, ?resetNo⟩
  case bright => exact hx.keeps State.bright (fun _ => rfl) fun _ => prepare_bright hi s
  case format => simpa [State.format] using hx.keeps State.format (fun _ => rfl) fun _ => prepare_format hi s
  case noFrame => exact hx.keeps State.dig (fun _ => rfl) fun _ => prepare_dig hi
  case digits => exact hx.keeps (readDig · k) (fun _ => rfl) fun hwf => readDig_prepare_of_le hc hl hwf hi hk
  case working => simpa [State.working] using hx.keeps State.working (fun _ => rfl) fun _ => prepare_working hi s
  case clock => subst hi; exact hx.keeps_clkOe
  case cfg => exact hx.keeps State.cfg (fun _ => rfl) fun _ => prepare_cfg i s
  case cmdQueue => exact hx.keeps State.cmdQueue (fun _ => rfl) fun _ => prepare_cmdQueue i s
  case resetIn => exact hx.keeps State.resetIn (fun _ => rfl) fun _ => prepare_resetIn i s
  case resetNo => exact hx.keeps State.resetNo (fun _ => rfl) fun _ => prepare_resetNo i s

end Sys2Proof.Machine

/-! ## The waveform and the state after reset -/

namespace Sys2Proof.Machine

/-- Only a `T` event puts a pair into the waveform. -/
theorem waveform_cons_of_ne {e : Event} (he : e ≠ .t) (p : Bool × Bool) (es : List Event) :
    waveform p (e :: es) = waveform (pinsAfter p e) es := by
  cases e with
  | t => exact absurd rfl he
  | _ => rfl

theorem waveform_length (p : Bool × Bool) (es : List Event) : (waveform p es).length = es.count .t := by
  induction es generalizing p with
  | nil => rfl
  | cons e es ih =>
    by_cases he : e = .t
    · subst he; simp [waveform, ih]
    · rw [waveform_cons_of_ne he, ih, List.count_cons_of_ne he]

/-- The waveform of two lists one after the other: the second begins with the pins the first leaves. -/
theorem waveform_append (p : Bool × Bool) (xs ys : List Event) :
    waveform p (xs ++ ys) = waveform p xs ++ waveform (xs.foldl pinsAfter p) ys := by
  induction xs generalizing p with
  | nil => rfl
  | cons e xs ih =>
    by_cases he : e = .t
    · subst he; simp only [List.cons_append, waveform, ih, List.foldl_cons]; rfl
    · rw [List.cons_append, waveform_cons_of_ne he, waveform_cons_of_ne he, ih, List.foldl_cons]

/-- Settles O21: the event that leaves the pins as they are is passed over by the waveform of what follows `before`. -/
theorem waveformShowsOnlyChanges : Obligations.WaveformShowsOnlyChanges := by
  refine ⟨waveform_length, fun p before e rest he hpins => ?_⟩
  rw [waveform_append, waveform_append, waveform_cons_of_ne he, hpins]

/-- Settles O52: after reset the block is not busy, and the parameters are those of R5. -/
theorem resetMeetsTheInvariant : Obligations.ResetMeetsTheInvariant where
  cfg_wf := by decide
  fmtLen_ge := by decide
  fmtLen_le := by decide
  rem_lt := by decide
  baseMag_le := by decide
  idle_done _ := rfl
  busy_ackWait h := absurd h Bool.false_ne_true
  busy_sample h := absurd h Bool.false_ne_true
  busy_smp h := absurd h Bool.false_ne_true
  busy_silent _ := rfl
  todo_released := rfl

/-- Settles O53: each register of `State.reset` is written out at the value of R29. -/
theorem resetValues : Obligations.ResetValues :=
  ⟨rfl, rfl, rfl, rfl, rfl, rfl, rfl, rfl, rfl, rfl, rfl, rfl, rfl, rfl, rfl, rfl⟩

end Sys2Proof.Machine

/-! ## The step that takes a word, the sample, and the receiver of the wire conditions

SUPPORT for the statements of the family 20_memory.md. The receiver is followed over the pieces of a transaction: a bit slot,
the eight data slots, the acknowledgement slot, a byte, the bytes one after the other, the transaction. -/

namespace Sys2Proof.Machine

/-! ### The step that takes a word, and the sample -/

theorem runWord_of_decode {w : CmdWord} {i : Instr} (h : decode w = .ok i) (s : State) : runWord w s = exec i s := by
  simp only [runWord, h]

/-- Settles O6: the word in front is taken and performed as a word, which is `exec` of what it decodes to. -/
theorem stepRunsTheDecodedCommand : Obligations.StepRunsTheDecodedCommand := by
  intro s w ps i hw hr hb hq hd
  rw [step_presented hr hb hq, runPresented_word (s := { s with cmdQueue := ps }) hw, runWord_of_decode hd]

theorem doOp_sample_driven {s : State} (h : s.dioOe = true) :
    doOp .sample s = { s with smp := false, upc := s.upc + 1, tr := s.tr ++ [.s false] } := by
  simp only [doOp, sampleDio, h, if_true]; rfl

theorem doOp_sample_released {s : State} (h : s.dioOe = false) :
    doOp .sample s =
      { s with
        smp := answerAt s 0, upc := s.upc + 1, tr := s.tr ++ [.s (answerAt s 0)],
        answers := s.answers.drop 1, sampleNo := s.sampleNo + 1 } := by
  have hline : dioLine false (!answerAt s 0) = answerAt s 0 := by simp [dioLine]
  simp only [doOp, sampleDio, h, Bool.false_eq_true, if_false, hline]; rfl

/-- Settles O19: the lists of a byte and of a frame release the data pin before each sample; a sample has two cases. -/
theorem sampleReadsTheLine : Obligations.SampleReadsTheLine :=
  ⟨fun rel b => writeByteOps_released b rel, fun rel len pos s => setSegmentsOps_released len pos s rel,
    fun _ => ⟨doOp_sample_driven, doOp_sample_released⟩⟩

/-! ### The levels of a byte -/

/-- The low n bits of a number, least significant first, add up to the number modulo 2^n (R97). -/
theorem byteOfLevels_testBits (n x : Nat) : byteOfLevels ((List.range n).map x.testBit) = x % 2 ^ n := by
  induction n generalizing x with
  | zero => simp [byteOfLevels, Nat.mod_one]
  | succ n ih =>
    have htail : x.testBit ∘ Nat.succ = (x / 2).testBit := funext fun i => Nat.testBit_succ x i
    rw [List.range_succ_eq_map, List.map_cons, List.map_map, htail, byteOfLevels, ih, Nat.testBit_zero, Nat.pow_succ',
      Nat.mod_mul]
    rcases Nat.mod_two_eq_zero_or_one x with h | h <;> simp [h]

/-- The bits of a byte, least significant first (R60). -/
def byteBits (b : Byte) : List Bool := (List.range 8).map b.getLsbD

@[simp] theorem byteBits_length (b : Byte) : (byteBits b).length = 8 := rfl

theorem byteOfLevels_byteBits (b : Byte) : byteOfLevels (byteBits b) = b.toNat :=
  (byteOfLevels_testBits 8 b.toNat).trans (Nat.mod_eq_of_lt b.isLt)

theorem ofNat_byteOfLevels_byteBits (b : Byte) : BitVec.ofNat 8 (byteOfLevels (byteBits b)) = b := by
  rw [byteOfLevels_byteBits, BitVec.ofNat_toNat, BitVec.setWidth_eq]

/-! ### The receiver in a transaction -/

theorem receiveAll_nil (r : Receiver) : receiveAll r [] = r := rfl

theorem receiveAll_cons (r : Receiver) (e : Event) (es : List Event) :
    receiveAll r (e :: es) = receiveAll (receiveEvent r e) es := rfl

/-- The receiver outside a transaction on an idle bus, having recognised `log`. -/
def Receiver.between (log : List WireItem) : Receiver := { Receiver.idle false false with log := log }

/-- The receiver in a transaction, before a bit slot: it has the first bits of a byte. -/
def Receiver.receiving (clkOe dioOe : Bool) (bits : List Bool) (log : List WireItem) : Receiver :=
  ⟨clkOe, dioOe, true, bits, false, false, false, false, log⟩

/-- The receiver in an acknowledgement slot whose clock has risen, the block not driving the data line. -/
def Receiver.inSlot (bits : List Bool) (log : List WireItem) : Receiver :=
  ⟨false, false, true, bits, true, false, false, false, log⟩

theorem receive_start (log : List WireItem) :
    receiveAll (.between log) startEvents = .receiving false true [] (log ++ [.start]) := rfl

/-- A bit slot gives the receiver one bit (R44(c), R93). -/
theorem receive_bitSlot (clk dio v : Bool) {bits : List Bool} (hb : bits.length < 8) (log : List WireItem) :
    receiveAll (.receiving clk dio bits log) (bitSlotEvents v) = .receiving false (!v) (bits ++ [v]) log := by
  cases v <;>
    simp [bitSlotEvents, receiveAll_cons, receiveAll_nil, receiveEvent, receiveClockFall, receiveClockRise, receiveDataLow,
      receiveDataHigh, Receiver.receiving, clkLine, dioLine, hb]

theorem receive_dataSlots (clk dio : Bool) (b : Byte) (log : List WireItem) :
    receiveAll (.receiving clk dio [] log) (dataSlotEvents b) = .receiving false (!b.getLsbD 7) (byteBits b) log := by
  simp [dataSlotEvents_eq, receiveAll_append, receive_bitSlot, byteBits, List.range_succ]

/-- The ninth rise of the clock begins the acknowledgement slot. -/
theorem receive_slotBegin (dio : Bool) {bits : List Bool} (hb : bits.length = 8) (log : List WireItem) :
    receiveAll (.receiving false dio bits log) [.c0, .d1, .t, .c1, .t] = .inSlot bits log := by
  simp [receiveAll_cons, receiveAll_nil, receiveEvent, receiveClockFall, receiveClockRise, receiveDataHigh,
    Receiver.receiving, Receiver.inSlot, clkLine, hb]

/-- A sample that reads 1 changes nothing: the responder does not pull. -/
theorem receive_onesSampled (n : Nat) (bits : List Bool) (log : List WireItem) :
    receiveAll (.inSlot bits log) (List.replicate n (.s true)) = .inSlot bits log := by
  induction n with
  | zero => rfl
  | succ n ih => rw [List.replicate_succ, receiveAll_cons]; exact ih

/-- The end of a slot whose last sample read `a`: the byte is complete when the clock falls (R44(d)). -/
theorem receive_slotEnd (a : Bool) (bits : List Bool) (log : List WireItem) :
    receiveAll (.inSlot bits log) (.s a :: ((if a then [] else [.d0]) ++ [.t, .c0, .t])) =
      .receiving true (!a) [] (log ++ [.byte (BitVec.ofNat 8 (byteOfLevels bits)) (!a)]) := by
  cases a <;> rfl

/-- A byte with its acknowledgement slot is received as that byte (R44(c), R44(d)). -/
theorem receive_byte (clk dio : Bool) (b : Byte) (a : Bool) (log : List WireItem) :
    receiveAll (.receiving clk dio [] log) (byteEvents b a) = .receiving true (!a) [] (log ++ [.byte b (!a)]) := by
  have hslot : ackSlotEvents a = [.c0, .d1, .t, .c1, .t] ++ .s a :: ((if a then [] else [.d0]) ++ [.t, .c0, .t]) := by
    cases a <;> rfl
  rw [byteEvents, hslot, receiveAll_append, receiveAll_append, receive_dataSlots, receive_slotBegin _ (byteBits_length b),
    receive_slotEnd, ofNat_byteOfLevels_byteBits]

/-- Under `ACK_WAIT` the slot holds several samples and the byte is acknowledged at the last one (R98). -/
theorem receive_waitedByte (clk dio : Bool) (b : Byte) (n : Nat) (log : List WireItem) :
    receiveAll (.receiving clk dio [] log) (waitedByteEvents b n) = .receiving true true [] (log ++ [.byte b true]) := by
  have hend : receiveAll (.inSlot (byteBits b) log) [.s false, .d0, .t, .c0, .t] = _ := receive_slotEnd false _ _
  rw [waitedByteEvents, receiveAll_append, receiveAll_append, receiveAll_append, receive_dataSlots,
    receive_slotBegin _ (byteBits_length b), receive_onesSampled, hend, ofNat_byteOfLevels_byteBits]
  rfl

/-- A stop condition after a byte ends the transaction, and nothing stray has happened (R44(b)). -/
theorem receive_stop (dio : Bool) {log : List WireItem} (h : log.getLast? ≠ some .start) :
    receiveAll (.receiving true dio [] log) stopEvents = .between (log ++ [.stop]) := by
  simp [stopEvents, receiveAll_cons, receiveAll_nil, receiveEvent, receiveClockRise, receiveDataLow, receiveDataHigh,
    Receiver.receiving, Receiver.between, Receiver.idle, clkLine, dioLine, h]

/-- Settles O23: start, the waited byte and stop, each as the receiver takes it. -/
theorem ackWaitSlotIsOneByteOnTheWire : Obligations.AckWaitSlotIsOneByteOnTheWire := by
  intro b n
  have hstart : receiveAll (.idle false false) startEvents = .receiving false true [] [.start] := receive_start []
  rw [wireItems, receiveAll_append, receiveAll_append, hstart, receive_waitedByte, receive_stop _ (by simp)]
  rfl

/-! ### Transactions on the wire -/

/-- The bytes of a transaction and its stop condition (R61). -/
theorem receive_bytesStop (clk dio : Bool) (b : Byte) (bs : List Byte) (as : List Bool)
    (h : as.length = (b :: bs).length) (log : List WireItem) :
    receiveAll (.receiving clk dio [] log) (bytesEvents (b :: bs) as ++ stopEvents) =
      .between (log ++ (List.zipWith (fun b a => .byte b (!a)) (b :: bs) as ++ [.stop])) := by
  induction bs generalizing clk dio b as log with
  | nil =>
    obtain ⟨a, rfl⟩ := List.length_eq_one_iff.mp h
    simp [bytesEvents, receiveAll_append, receive_byte, receive_stop]
  | cons c bs ih =>
    obtain ⟨a, as, rfl⟩ := List.exists_cons_of_length_eq_add_one h
    rw [bytesEvents, List.append_assoc, receiveAll_append, receive_byte, ih _ _ c as (Nat.succ.inj h)]
    simp

theorem receive_transaction {bs : List Byte} (hne : bs ≠ []) {as : List Bool} (h : as.length = bs.length)
    (log : List WireItem) :
    receiveAll (.between log) (transactionEvents bs as) = .between (log ++ transactionItems bs as) := by
  obtain ⟨b, bs, rfl⟩ := List.exists_cons_of_ne_nil hne
  rw [transactionEvents, List.append_assoc, receiveAll_append, receive_start, receive_bytesStop _ _ _ _ _ h]
  simp [transactionItems]

/-- How many bytes the transactions hold. -/
def byteCount (bss : List (List Byte)) : Nat := (bss.map List.length).sum

@[simp] theorem byteCount_cons (bs : List Byte) (bss : List (List Byte)) :
    byteCount (bs :: bss) = bs.length + byteCount bss := rfl

/-- Transactions that are not empty are received one after the other, whatever is sampled. -/
theorem receive_transactions {bss : List (List Byte)} (hne : ∀ bs ∈ bss, bs ≠ []) {as : List Bool}
    (h : as.length = byteCount bss) (log : List WireItem) :
    receiveAll (.between log) (transactionsEvents bss as) = .between (log ++ transactionsItems bss as) := by
  induction bss generalizing as log with
  | nil => simp [transactionsEvents, transactionsItems, receiveAll_nil]
  | cons bs bss ih =>
    rw [byteCount_cons] at h
    have hfirst : (as.take bs.length).length = bs.length := by rw [List.length_take]; omega
    have hrest : (as.drop bs.length).length = byteCount bss := by rw [List.length_drop]; omega
    rw [transactionsEvents, receiveAll_append, receive_transaction (hne bs List.mem_cons_self) hfirst,
      ih (fun cs hcs => hne cs (List.mem_cons_of_mem _ hcs)) hrest, transactionsItems, List.append_assoc]

theorem frameBytes_ne_nil (len : Nat) (pos : Byte) (s : State) : ∀ bs ∈ frameBytes len pos s, bs ≠ [] := by
  simp [frameBytes]

theorem byteCount_frameBytes (len : Nat) (pos : Byte) (s : State) : byteCount (frameBytes len pos s) = 3 + len := by
  simp [byteCount, frameBytes]; omega

/-! ### What a correct responder shows after acknowledged transactions -/

/-- The bytes of a transaction, every one acknowledged. -/
def ackedTransaction (bs : List Byte) : List (Byte × Bool) := bs.map fun b => (b, true)

theorem ackedBytes_ackedTransaction (bs : List Byte) : ackedBytes (ackedTransaction bs) = some bs := by
  simp [ackedBytes, ackedTransaction, Function.comp_def]

theorem transactionItems_acked (bs : List Byte) :
    transactionItems bs (List.replicate bs.length false) = .start :: (bs.map (WireItem.byte · true) ++ [.stop]) := by
  have hzip : List.zipWith (fun b a => WireItem.byte b (!a)) bs (List.replicate bs.length false) =
      bs.map (WireItem.byte · true) := by
    induction bs with
    | nil => rfl
    | cons b bs ih => simp only [List.length_cons, List.replicate_succ, List.zipWith_cons_cons, ih]; rfl
  rw [transactionItems, hzip]

theorem splitTransactions_ackedBytes (acc : List (Byte × Bool)) (bs : List Byte) (rest : List WireItem) :
    splitTransactions (some acc) (bs.map (WireItem.byte · true) ++ .stop :: rest) =
      (splitTransactions none rest).map ((acc ++ ackedTransaction bs) :: ·) := by
  induction bs generalizing acc with
  | nil => simp [splitTransactions, ackedTransaction]
  | cons b bs ih => simp [splitTransactions, ih, ackedTransaction]

theorem splitTransactions_acked (bss : List (List Byte)) :
    splitTransactions none (transactionsItems bss (List.replicate (byteCount bss) false)) =
      some (bss.map ackedTransaction) := by
  induction bss with
  | nil => rfl
  | cons bs bss ih =>
    simp [transactionsItems, transactionItems_acked, splitTransactions, splitTransactions_ackedBytes, ih]

/-- Acknowledged transactions on an idle bus reach the responder as they were sent, and nothing stray happens. -/
theorem displayAfter_acked {bss : List (List Byte)} (hne : ∀ bs ∈ bss, bs ≠ []) (d : Display) :
    displayAfter (false, false) (transactionsEvents bss (List.replicate (byteCount bss) false)) d =
      showFrames (bss.map ackedTransaction) d := by
  have hrecv : receiveAll (.idle false false) (transactionsEvents bss (List.replicate (byteCount bss) false)) =
      .between (transactionsItems bss (List.replicate (byteCount bss) false)) :=
    receive_transactions hne List.length_replicate []
  simp only [displayAfter, wireItems, hrecv]
  simp [Receiver.between, Receiver.idle, splitTransactions_acked]

/-- The address command carries the position modulo 4 and is an address command (R46, R63). -/
theorem addressCommand_fields (pos : Byte) :
    (addressCommand pos &&& 0x3).toNat = pos.toNat % 4 ∧ addressCommand pos &&& 0xFC = 0xC0 := by
  have hmask (m : Byte) : addressCommand pos &&& m = 0xC0 &&& m ||| pos &&& (0x3 &&& m) := by
    rw [addressCommand, posMasked, BitVec.and_or_distrib_right, BitVec.and_assoc]
  constructor
  · simpa [hmask] using Nat.and_two_pow_sub_one_eq_mod pos.toNat 2
  · simp [hmask]

/-- The control command carries `BRIGHT` and is a control command (R64). -/
theorem controlCommand_fields (bright : BitVec 4) :
    controlCommand bright &&& 0xF0 = 0x80 ∧ (controlCommand bright).setWidth 4 = bright := by
  revert bright; decide

/-- What a correct responder that showed `d` shows after a fully acknowledged frame sent from `s` (R47, R49, U6). -/
def shownByFrame (len : Nat) (pos : Byte) (s : State) (d : Display) : Display :=
  ⟨if pos.toNat % 4 + len ≤ 4 then d.mem.writeRun (pos.toNat % 4) (digits s len) else [], some s.bright⟩

theorem showFrame_frameBytes {len : Nat} (h1 : 1 ≤ len) (h4 : len ≤ 4) (pos : Byte) (s : State) (d : Display) :
    showFrame (ackedTransaction [dataCommand]) (ackedTransaction (addressCommand pos :: digits s len))
      (ackedTransaction [controlCommand s.bright]) d = some (shownByFrame len pos s d) := by
  obtain ⟨hpos, hadr⟩ := addressCommand_fields pos
  obtain ⟨hctl, hbright⟩ := controlCommand_fields s.bright
  simp only [showFrame, ackedBytes_ackedTransaction, digits_length]
  rw [if_pos ⟨rfl, hadr, hctl, h1, h4⟩, hpos, hbright, shownByFrame]

theorem displayAfter_frame {len : Nat} (h1 : 1 ≤ len) (h4 : len ≤ 4) (pos : Byte) (s : State) (d : Display) :
    displayAfter (false, false) (transactionsEvents (frameBytes len pos s) (List.replicate (3 + len) false)) d =
      shownByFrame len pos s d := by
  rw [← byteCount_frameBytes len pos s, displayAfter_acked (frameBytes_ne_nil len pos s), frameBytes]
  simp only [List.map_cons, List.map_nil, showFrames, showFrame_frameBytes h1 h4]

/-- A frame within the four positions, read back at and beside the positions it writes (R46, R47). -/
theorem shownByFrame_read {len : Nat} {pos : Byte} (hfit : pos.toNat % 4 + len ≤ 4) (s : State) (d : Display) :
    (∀ k, k < len → (shownByFrame len pos s d).mem.read (pos.toNat % 4 + k) = some (readDig s k)) ∧
      ∀ a, (a < pos.toNat % 4 ∨ pos.toNat % 4 + len ≤ a) → (shownByFrame len pos s d).mem.read a = d.mem.read a := by
  simp only [shownByFrame, if_pos hfit, DisplayMem.read_writeRun, digits_length]
  refine ⟨fun k hk => ?_, fun a ha => if_neg (by omega)⟩
  rw [if_pos (by omega), Nat.add_sub_cancel_left]
  simp [digits, hk]

/-- After a frame that runs past position 3 no position is known (R49, U6). -/
theorem shownByFrame_read_past {len : Nat} {pos : Byte} (hpast : 4 < pos.toNat % 4 + len) (s : State) (d : Display)
    (a : Nat) : (shownByFrame len pos s d).mem.read a = none := by
  simp only [shownByFrame, if_neg (Nat.not_le.mpr hpast)]; rfl

/-! ### A command whose samples all read 0 -/

/-- What the next entry leaves of "every sample reads 0" for the rest of the list. -/
theorem everySampleZero_doOp {op : MicroOp} {ops : List MicroOp} {s : State}
    (h : everySampleZero s ((op :: ops).count .sample)) : everySampleZero (doOp op s) (ops.count .sample) := by
  cases op with
  | sample =>
    rw [List.count_cons_self] at h
    intro k hk
    cases hd : s.dioOe with
    | true =>
      rw [doOp_sample_driven hd, ← h k (by omega)]
      exact answerAt_congr rfl rfl k
    | false =>
      rw [doOp_sample_released hd, ← h (1 + k) (by omega), ← answerAt_takeAnswers]
      exact answerAt_congr rfl rfl k
  | pin l d => cases l <;> exact h
  | delay => exact h
  | holdIfAcked => exact h
  | foldAck => exact h

/-- A sample that reads 0 does not wait, and no other entry does (R98). -/
theorem waits_of_everySampleZero {op : MicroOp} {ops : List MicroOp} {s : State}
    (h : everySampleZero s ((op :: ops).count .sample)) : waits op (doOp op s) = false := by
  refine Bool.eq_false_iff.mpr fun hw => ?_
  obtain ⟨rfl, -, hsmp⟩ := waits_iff.mp hw
  have hzero : answerAt s 0 = false := h 0 (by rw [List.count_cons_self]; omega)
  cases hd : s.dioOe with
  | true => simp [doOp_sample_driven hd] at hsmp
  | false => simp [doOp_sample_released hd, hzero] at hsmp

/-- When every sample reads 0 the list is performed to its response, for both values of `ACK_WAIT` (R98). -/
theorem perform_of_everySampleZero {ops : List MicroOp} {s : State} (h : everySampleZero s (ops.count .sample)) :
    perform ops s = respond .ok 0 { performAll ops s with todo := [] } := by
  induction ops generalizing s with
  | nil => rfl
  | cons op ops ih =>
    rw [perform_cons, waits_of_everySampleZero h, performAll_cons]
    exact ih (everySampleZero_doOp h)

theorem doOp_setAckWait (b : Bool) (op : MicroOp) (s : State) :
    doOp op (setAckWait b s) = setAckWait b (doOp op s) := by
  cases op with
  | pin l d => cases l <;> rfl
  | delay => rfl
  | sample =>
    cases hd : s.dioOe with
    | true => rw [doOp_sample_driven hd, doOp_sample_driven (s := setAckWait b s) hd]; rfl
    | false => rw [doOp_sample_released hd, doOp_sample_released (s := setAckWait b s) hd]; rfl
  | holdIfAcked => rfl
  | foldAck => rfl

/-- Without the wait loop no entry of a list reads `ACK_WAIT`. -/
theorem performAll_setAckWait (b : Bool) (ops : List MicroOp) (s : State) :
    performAll ops (setAckWait b s) = setAckWait b (performAll ops s) := by
  induction ops generalizing s with
  | nil => rfl
  | cons op ops ih => rw [performAll_cons, doOp_setAckWait, ih, performAll_cons]

theorem setAckWait_self (s : State) : setAckWait s.cfg.ackWait s = s := rfl

theorem setAckWait_setAckWait (a b : Bool) (s : State) : setAckWait a (setAckWait b s) = setAckWait a s := rfl

theorem writeByteOps_count_sample (b : Byte) : (writeByteOps b).count .sample = 1 := by
  have hslot : ∀ v : Bool, (bitSlotOps v).count .sample = 0 := by decide
  have hack : ackSlotOps.count .sample = 1 := by decide
  simp [writeByteOps, hslot, hack]

theorem transactionOps_count_sample (bs : List Byte) : (transactionOps bs).count .sample = bs.length := by
  have hstart : startOps.count .sample = 0 := by decide
  have hstop : stopOps.count .sample = 0 := by decide
  induction bs with
  | nil => rfl
  | cons b bs ih =>
    simp only [transactionOps, List.flatMap_cons, List.count_append, writeByteOps_count_sample, hstart, hstop,
      List.length_cons] at ih ⊢
    omega

/-- A frame samples once for each of its bytes (R116). -/
theorem setSegmentsOps_count_sample (len : Nat) (pos : Byte) (s : State) :
    (setSegmentsOps len pos s).count .sample = 3 + len := by
  rw [setSegmentsOps_eq, ← byteCount_frameBytes len pos s]
  induction frameBytes len pos s with
  | nil => rfl
  | cons bs bss ih => rw [List.flatMap_cons, List.count_append, transactionOps_count_sample, ih, byteCount_cons]

/-- Everything a fully acknowledged frame and its response do, for both values of `ACK_WAIT` (R98, R114). -/
theorem sendFrame_acked {len : Nat} {s : State} (h : everySampleZero s (3 + len)) (pos : Byte) :
    sendFrame len pos s = frameEffect len pos s := by
  have hoff : sendFrame len pos (setAckWait false s) = setAckWait false (sendFrame len pos s) := by
    have hops : setSegmentsOps len pos (setAckWait false s) = setSegmentsOps len pos s := rfl
    rw [sendFrame, sendFrame, hops, perform_eq rfl, performAll_setAckWait,
      perform_of_everySampleZero (by rwa [setSegmentsOps_count_sample])]
    generalize performAll _ s = t
    rfl
  have hcfg : (sendFrame len pos s).cfg = s.cfg := (congrArg State.cfg (perform_stored _ s) :)
  calc sendFrame len pos s
      = setAckWait s.cfg.ackWait (setAckWait false (sendFrame len pos s)) := by
        rw [setAckWait_setAckWait, ← hcfg, setAckWait_self]
    _ = setAckWait s.cfg.ackWait (frameEffect len pos (setAckWait false s)) := by rw [← hoff, sendFrame_eq rfl]
    _ = frameEffect len pos s := rfl

/-! ### The frame of a command -/

/-- The micro-step list of a command that sends a frame is that frame, of the digit count and position of `frameOf` (R114). -/
theorem microOps_frame {i : Instr} {s : State} (hc : s.cfg.wf = true) (hwf : i.wf s.cfg = true) {len : Nat} {pos : Byte}
    (h : frameOf i s = some (len, pos)) : microOps i (prepare i s) = setSegmentsOps len pos (prepare i s) := by
  have hprep : (prepare i s).fmtLen = (loadOperands i (accept s)).fmtLen :=
    (congrArg State.fmtLen (fillShown_offBuffer i _) :)
  have stored : (loadOperands i (accept s)).fmtLen.toNat = len →
      setSegmentsOps (prepare i s).fmtLen.toNat pos (prepare i s) = setSegmentsOps len pos (prepare i s) := fun hl => by
    rw [hprep, hl]
  have explicit : ∀ n : Byte, lenAdmitted s.cfg n = true → (n.setWidth 3).toNat = n.toNat := fun n =>
    fmtLen_toNat (maxDigits_of_wf hc)
  cases i <;> cases h
  case setseg => rfl
  case showbase => exact stored (explicit _ (Bool.and_eq_true_iff.mp hwf).2)
  case showdec => exact stored (explicit _ hwf)
  case showhex => exact stored (explicit _ hwf)
  case showbaseD => exact stored rfl
  case showdecD => exact stored rfl
  case showhexD => exact stored rfl

/-- A command that sends a frame and is not refused prepares its registers and sends the frame from them. -/
theorem exec_frame {i : Instr} {s : State} (hc : s.cfg.wf = true) (hwf : i.wf s.cfg = true) {len : Nat} {pos : Byte}
    (h : frameOf i s = some (len, pos)) : exec i s = .next (sendFrame len pos (prepare i s)) := by
  have hi : ∀ d, i ≠ .encode d := by rintro d rfl; cases h
  rw [exec_eq hi, if_pos hwf, microOps_frame hc hwf h, sendFrame]

theorem answerAt_prepare (i : Instr) (s : State) (k : Nat) : answerAt (prepare i s) k = answerAt s k :=
  answerAt_congr (prepare_answers i s) (congrArg State.sampleNo (prepare_offOperands i s) :) k

theorem nextAnswers_of_everySampleZero {s : State} {n : Nat} (h : everySampleZero s n) :
    nextAnswers s n = List.replicate n false :=
  List.eq_replicate_iff.mpr ⟨nextAnswers_length s n, by simpa [nextAnswers, everySampleZero] using h⟩

/-- Settles O34: the command ends as `frameEffect` says, and the responder receives and shows the frame (`displayAfter_frame`). -/
theorem displayShowsTheFrame : Obligations.DisplayShowsTheFrame := by
  intro i s len pos d hc hwf hf h1 h4 _ _ hz
  have hz' : everySampleZero (prepare i s) (3 + len) := fun k hk => (answerAt_prepare i s k).trans (hz k hk)
  have hexec : exec i s = .next (frameEffect len pos (prepare i s)) := by rw [exec_frame hc hwf hf, sendFrame_acked hz']
  have htr : (frameEffect len pos (prepare i s)).tr =
      s.tr ++ transactionsEvents (frameBytes len pos (prepare i s)) (List.replicate (3 + len) false) := by
    rw [← nextAnswers_of_everySampleZero hz', ← prepare_tr i s]; rfl
  refine ⟨_, _, hexec, htr, ?_⟩
  rw [displayAfter_frame h1 h4]
  exact ⟨rfl, fun hfit => shownByFrame_read hfit _ d, fun hpast => shownByFrame_read_past hpast _ d⟩

end Sys2Proof.Machine

/-! ## Command words: fields, rows of the opcode table, decoding and encoding

SUPPORT for the statements of the family 30_encoding.md. A command word is taken apart into fields: placed operands that do
not overlap are read back one by one, and a word is the union of its fields and its reserved bits. -/

namespace Sys2Proof

open Laws.Encoding (opcode)

/-! ### Fields and placed operands -/

@[simp] theorem field_or (v w : CmdWord) (lo n : Nat) : field (v ||| w) lo n = field v lo n ||| field w lo n :=
  BitVec.extractLsb'_or

@[simp] theorem bitField_or (v w : CmdWord) (i : Nat) : bitField (v ||| w) i = (bitField v i || bitField w i) :=
  BitVec.getLsbD_or

/-- A field reads back the operand placed in it. -/
theorem field_place_same {n : Nat} (v : BitVec n) (lo : Nat) (hn : lo + n ≤ 64) : field (place v lo) lo n = v := by
  refine BitVec.eq_of_getElem_eq fun k hk => ?_
  rw [field_getElem _ _ _ _ hk, BitVec.getLsbD_eq_getElem (by omega), place_getElem _ _ _ (by omega)]
  simp [hk]

/-- A field reads nothing of an operand placed beside it. -/
theorem field_place_beside {m : Nat} (v : BitVec m) (lo lo' n : Nat) (h : lo' + m ≤ lo ∨ lo + n ≤ lo') (hn : lo + n ≤ 64) :
    field (place v lo') lo n = 0#n := by
  refine BitVec.eq_of_getElem_eq fun k hk => ?_
  rw [field_getElem _ _ _ _ hk, BitVec.getLsbD_eq_getElem (by omega), place_getElem _ _ _ (by omega)]
  rcases h with h | h
  · rw [BitVec.getLsbD_of_ge _ _ (by omega)]; simp
  · simp; omega

theorem field_placeBit_beside (b : Bool) (lo lo' n : Nat) (h : lo' + 1 ≤ lo ∨ lo + n ≤ lo') (hn : lo + n ≤ 64) :
    field (placeBit b lo') lo n = 0#n := field_place_beside _ lo lo' n h hn

theorem bitField_placeBit_same (b : Bool) (i : Nat) (hi : i < 64) : bitField (placeBit b i) i = b := by
  rw [bitField, BitVec.getLsbD_eq_getElem hi, placeBit_getElem _ _ _ hi]; simp

theorem bitField_place_beside {m : Nat} (v : BitVec m) (i lo : Nat) (h : lo + m ≤ i ∨ i < lo) (hi : i < 64) :
    bitField (place v lo) i = false := by
  rw [bitField, BitVec.getLsbD_eq_getElem hi, place_getElem _ _ _ hi]
  rcases h with h | h
  · rw [BitVec.getLsbD_of_ge _ _ (by omega)]; simp
  · simp; omega

/-- A field placed where it was read is the word under the field's mask. -/
theorem place_field (w : CmdWord) (lo n : Nat) : place (field w lo n) lo = w &&& place (BitVec.allOnes n) lo := by
  refine BitVec.eq_of_getElem_eq fun k hk => ?_
  rw [BitVec.getElem_and, place_getElem _ _ _ hk, place_getElem _ _ _ hk]
  by_cases h : lo ≤ k ∧ k - lo < n
  · have hk' : lo + (k - lo) = k := by omega
    simp [field, h, hk', BitVec.getLsbD_eq_getElem hk]
  · by_cases hl : lo ≤ k
    · have hn : ¬ k - lo < n := fun hn => h ⟨hl, hn⟩
      simp [field, hn]
    · simp [hl]

theorem placeBit_bitField (w : CmdWord) (i : Nat) : placeBit (bitField w i) i = w &&& placeBit true i := by
  refine BitVec.eq_of_getElem_eq fun k hk => ?_
  rw [BitVec.getElem_and, placeBit_getElem _ _ _ hk, placeBit_getElem _ _ _ hk, bitField]
  by_cases h : k = i
  · subst h; simp [BitVec.getLsbD_eq_getElem hk]
  · simp [h]

/-! ### Rows of the opcode table -/

/-- The opcode field `cw[63:60]` (R74). -/
def opcodeMask : CmdWord := place (BitVec.allOnes 4) 60

/-- The row of an opcode as (match, mask): its opcode bits, and the opcode field with the reserved bits of its format. -/
def opcodeRow (n : Nat) : CmdWord × CmdWord := (place (BitVec.ofNat 4 n) 60, opcodeMask ||| reservedMask n)

theorem opcodeRows_eq : Machine.opcodeRows = (List.range 13).map opcodeRow := by decide

theorem mem_opcodeRows {row : CmdWord × CmdWord} : row ∈ Machine.opcodeRows ↔ ∃ n < 13, row = opcodeRow n := by
  simp [opcodeRows_eq, eq_comm]

/-- Reserved bits are no opcode bits. -/
theorem opcodeMask_and_reservedMask (n : Nat) : opcodeMask &&& reservedMask n = 0 := by
  unfold reservedMask; split <;> decide

theorem opcode_field_eq_iff {n : Nat} (hn : n < 16) (w : CmdWord) :
    (field w 60 4).toNat = n ↔ place (field w 60 4) 60 = place (BitVec.ofNat 4 n) 60 := by
  constructor
  · rintro rfl; rw [BitVec.ofNat_toNat, BitVec.setWidth_eq]
  · intro h
    have hread := congrArg (field · 60 4) h
    simp only [field_place_same (n := 4) _ 60 (Nat.le_refl 64)] at hread
    rw [hread, BitVec.toNat_ofNat, Nat.mod_eq_of_lt hn]

/-- A word under two masks that do not overlap, where all bits set lie under the first. -/
theorem and_or_eq_iff {w f m c : CmdWord} (hfm : f &&& m = 0) (hc : c &&& f = c) :
    w &&& (f ||| m) = c ↔ w &&& f = c ∧ w &&& m = 0 := by
  have hcm : c &&& m = 0 := by rw [← hc, BitVec.and_assoc, hfm]; exact BitVec.and_zero
  have hmf : m &&& f = 0 := (BitVec.and_comm m f).trans hfm
  constructor
  · intro h
    constructor
    · rw [← hc, ← h, BitVec.and_assoc, BitVec.and_or_distrib_right, hmf]; simp
    · rw [← hcm, ← h, BitVec.and_assoc, BitVec.and_or_distrib_right, hfm]; simp
  · rintro ⟨hf, hm⟩
    rw [BitVec.and_or_distrib_left, hf, hm]; exact BitVec.or_zero

/-- A word matches a row exactly when it has the row's opcode and no reserved bit of its format (R84). -/
theorem matches_opcodeRow_iff {n : Nat} (hn : n < 16) (w : CmdWord) :
    w &&& (opcodeRow n).2 = (opcodeRow n).1 ↔ (field w 60 4).toNat = n ∧ w &&& reservedMask n = 0 := by
  have hc : place (BitVec.ofNat 4 n) 60 &&& opcodeMask = place (BitVec.ofNat 4 n) 60 := by
    rw [opcodeMask, ← place_field, field_place_same (n := 4) _ 60 (Nat.le_refl 64)]
  rw [opcode_field_eq_iff hn, place_field]
  exact and_or_eq_iff (opcodeMask_and_reservedMask n) hc

/-- The word of a command matches the row of its opcode. -/
theorem encode_matches (i : Instr) : encode i &&& (opcodeRow (opcode i)).2 = (opcodeRow (opcode i)).1 := by
  cases i with
  | start => exact Laws.Encoding.start
  | stop => exact Laws.Encoding.stop
  | wrbyte data => exact Laws.Encoding.wrbyte data
  | encode data => exact Laws.Encoding.encode data
  | setseg seg0 seg1 seg2 seg3 len pos => exact Laws.Encoding.setseg seg0 seg1 seg2 seg3 len pos
  | setbrt level on => exact Laws.Encoding.setbrt level on
  | setfmt len lz dots => exact Laws.Encoding.setfmt len lz dots
  | showbase base value dots lz len pos => exact Laws.Encoding.showbase base value dots lz len pos
  | showdec num dots lz len pos => exact Laws.Encoding.showdec num dots lz len pos
  | showhex value dots lz len pos => exact Laws.Encoding.showhex value dots lz len pos
  | showbaseD base value pos => exact Laws.Encoding.showbaseD base value pos
  | showdecD num pos => exact Laws.Encoding.showdecD num pos
  | showhexD value pos => exact Laws.Encoding.showhexD value pos

theorem opcode_lt (i : Instr) : opcode i < 13 := by cases i <;> exact of_decide_eq_true rfl

/-! ### Decoding -/

/-- A word decodes exactly to the command its fields hold, when no reserved bit of the format is 1 (R84). -/
theorem decode_eq_ok_iff {w : CmdWord} {i : Instr} :
    decode w = .ok i ↔
      decodeFields (field w 60 4).toNat w = some i ∧ w &&& reservedMask (field w 60 4).toNat = 0 := by
  simp only [decode]
  split
  · next h => simp [h]
  · next j h => split <;> simp_all

/-- The opcodes 0xD, 0xE and 0xF have no command (R75, R84). -/
theorem exists_decodeFields_iff {op : Nat} {w : CmdWord} : (∃ i, decodeFields op w = some i) ↔ op < 13 := by
  constructor
  · rintro ⟨i, h⟩
    unfold decodeFields at h
    split at h <;> simp_all
  · intro h
    interval_cases op <;> exact ⟨_, rfl⟩

/-- A signed operand fits its width exactly when its bits are read back as that operand. -/
theorem fitsSigned_iff {n : Nat} {v : Int} : fitsSigned (n + 1) v = true ↔ (BitVec.ofInt (n + 1) v).toInt = v := by
  constructor
  · intro h
    simp only [fitsSigned, Bool.and_eq_true, decide_eq_true_eq] at h
    exact BitVec.toInt_ofInt_eq_self n.succ_pos h.1 h.2
  · intro h
    exact h ▸ Machine.fitsSigned_toInt (BitVec.ofInt (n + 1) v)

/-- An unsigned operand fits its width exactly when its bits are read back as that operand. -/
theorem fitsUnsigned_iff {n v : Nat} : fitsUnsigned n v = true ↔ (BitVec.ofNat n v).toNat = v :=
  ⟨fun h => (BitVec.toNat_ofNat v n).trans (Nat.mod_eq_of_lt (of_decide_eq_true h)),
    fun h => h ▸ Machine.fitsUnsigned_toNat (BitVec.ofNat n v)⟩

theorem field_ofNat (x lo n : Nat) : field (BitVec.ofNat 64 x) lo n = BitVec.ofNat n ((x % 2 ^ 64) >>> lo) := rfl

theorem bitField_ofNat (x i : Nat) : bitField (BitVec.ofNat 64 x) i = decide (x % 2 ^ 64 / 2 ^ i % 2 = 1) :=
  Nat.testBit_eq_decide_div_mod_eq

/-- The fields of the word of a command hold its operands: each field reads its own, the others are placed beside it. -/
theorem decodeFields_encode {i : Instr} (h : i.HasWord) : decodeFields (opcode i) (encode i) = some i := by
  cases i <;> simp only [Instr.HasWord, Instr.fitsWidths, Bool.and_eq_true, fitsSigned_iff, fitsUnsigned_iff] at h
  all_goals
    simp (disch := omega) [decodeFields, opcode, encode, field_place_same, field_place_beside, field_placeBit_beside,
      bitField_placeBit_same, bitField_place_beside, field_ofNat, bitField_ofNat, h, -BitVec.toInt_ofInt, -BitVec.toNat_ofNat]

/-- Settles O1: the word matches the row of its opcode, and its fields hold the operands. -/
theorem decodeOfEncode : Obligations.DecodeOfEncode := by
  intro i hi
  obtain ⟨hop, hres⟩ := (matches_opcodeRow_iff ((opcode_lt i).trans (by decide)) _).mp (encode_matches i)
  exact decode_eq_ok_iff.mpr (hop.symm ▸ ⟨decodeFields_encode hi, hres⟩)

/-- The fields of a word, placed where they were read, are the word without the reserved bits of its format. -/
theorem encode_of_decodeFields {w : CmdWord} {i : Instr} (h : decodeFields (field w 60 4).toNat w = some i) :
    encode i = w &&& ~~~reservedMask (field w 60 4).toNat := by
  have hlt := exists_decodeFields_iff.mp ⟨i, h⟩
  obtain ⟨op, hop⟩ : ∃ op, (field w 60 4).toNat = op := ⟨_, rfl⟩
  have hrow := (opcode_field_eq_iff (by omega) w).mp hop
  rw [hop] at h hlt ⊢
  rw [place_field] at hrow
  interval_cases op <;> cases h <;> simp [place] at hrow
  all_goals
    simp [encode, place_field, placeBit_bitField, ← hrow, ← BitVec.and_or_distrib_left]
    rfl

/-- Settles O2: the command's word is the word without its reserved bits, and these are 0. -/
theorem encodeOfDecode : Obligations.EncodeOfDecode := by
  intro w i h
  obtain ⟨hf, hres⟩ := decode_eq_ok_iff.mp h
  refine ⟨Machine.decode_hasWord h, ?_⟩
  calc encode i = 0 ||| w &&& ~~~reservedMask (field w 60 4).toNat := by
        rw [encode_of_decodeFields hf]; exact BitVec.zero_or.symm
    _ = w := by rw [← hres, ← BitVec.and_or_distrib_left, BitVec.or_not_self, BitVec.and_allOnes]

/-- Settles O3: a word decodes when it has one of the 13 opcodes and no reserved bit, and so does a word that matches a row. -/
theorem decodeAcceptsTheOpcodeTable : Obligations.DecodeAcceptsTheOpcodeTable := by
  intro w
  simp only [decode_eq_ok_iff, exists_and_right, exists_decodeFields_iff, mem_opcodeRows]
  constructor
  · rintro ⟨hop, hres⟩
    exact ⟨_, ⟨_, hop, rfl⟩, (matches_opcodeRow_iff (by omega) w).mpr ⟨rfl, hres⟩⟩
  · rintro ⟨_, ⟨n, hn, rfl⟩, hm⟩
    obtain ⟨rfl, hres⟩ := (matches_opcodeRow_iff (by omega) w).mp hm
    exact ⟨hn, hres⟩

end Sys2Proof

/-! ## What is presented is performed or answered -/

namespace Sys2Proof.Machine

theorem fits_of_takesWords {c : Config} (h : c.takesWords = true) (i : Instr) : i.fits c = true ↔ i.HasWord := by
  simp only [Config.takesWords, Bool.and_eq_true, decide_eq_true_eq] at h
  rw [Instr.fits, h.1, h.2]

/-- The word of a command is performed as the command (R74). -/
theorem runPresented_encode {s : State} {i : Instr} (hw : s.cfg.takesWords = true) (hi : i.HasWord) :
    runPresented (.word (encode i)) s = exec i s := by
  rw [runPresented_word hw, runWord_of_decode (decodeOfEncode i hi)]

/-- Settles O7: the four cases of `runPresented`; a command that fits the widths 16 and 8 has a word, which decodes to it. -/
theorem decodedCommandsAtEveryWidth : Obligations.DecodedCommandsAtEveryWidth := by
  intro s ps hr hb
  refine ⟨fun i hq => ⟨fun hfit => ?fits, fun hfit => ?wide, fun hw hfit => ?same⟩, fun w hq hw => ?noLayout⟩
  case fits => rw [step_presented hr hb hq, runPresented_decoded (s := { s with cmdQueue := ps }) hfit]
  case wide => simp [step_presented hr hb hq, runPresented, hfit]
  case same =>
    have hword := step_presented (s := { s with cmdQueue := .word (encode i) :: ps }) hr hb rfl
    rw [step_presented hr hb hq, runPresented_decoded (s := { s with cmdQueue := ps }) hfit, hword]
    exact (runPresented_encode (s := { s with cmdQueue := ps }) hw ((fits_of_takesWords hw i).mp hfit)).symm
  case noLayout => simp [step_presented hr hb hq, runPresented, hw]

/-- A word of 64 bits placed by the host stands in front of the command port. -/
theorem withFetchWord_eq_present (s : State) (w : CmdWord) : s.withFetchWord 64 w.toNat = present w s := by
  have hword : tableWord 64 w.toNat = some w := by
    rw [tableWord, if_pos (Nat.le_refl 64), Nat.mod_eq_of_lt w.isLt, BitVec.ofNat_toNat, BitVec.setWidth_eq]
  simp only [State.withFetchWord, hword]

/-- Settles O8: the placed word is taken at the next step, and it decodes to its command. -/
theorem fetchWordRunsTheCommand : Obligations.FetchWordRunsTheCommand := by
  intro s i hw hi
  have hq : (present (encode i) s).cmdQueue = .word (encode i) :: s.cmdQueue := rfl
  rw [withFetchWord_eq_present, step_presented rfl rfl hq]
  exact runPresented_encode hw hi

theorem runWord_of_not_decode {w : CmdWord} (h : ¬ ∃ i, decode w = .ok i) (s : State) : runWord w s = .next (illegal s) := by
  unfold runWord
  split
  · next i hd => exact absurd ⟨i, hd⟩ h
  · rfl

/-- The opcode as the statements read it and as the decoder reads it (R74). -/
theorem toNat_ushiftRight_opcode (w : CmdWord) : (w >>> 60).toNat = (field w 60 4).toNat := by
  have hlt := w.isLt
  simp only [field, BitVec.toNat_ushiftRight, BitVec.extractLsb'_toNat, Nat.shiftRight_eq_div_pow]
  omega

/-- A word with a reserved opcode, or with its opcode's row but not matching it, does not decode (R84). -/
theorem not_decode_of_illegal {w : CmdWord}
    (h : 13 ≤ (w >>> 60).toNat ∨ ∃ row ∈ opcodeRows, w >>> 60 = row.1 >>> 60 ∧ w &&& row.2 ≠ row.1) :
    ¬ ∃ i, decode w = .ok i := by
  rw [decodeAcceptsTheOpcodeTable]
  rintro ⟨row, hrow, hmatch⟩
  obtain ⟨n, hn, rfl⟩ := mem_opcodeRows.mp hrow
  obtain ⟨hop, -⟩ := (matches_opcodeRow_iff (by omega) w).mp hmatch
  rcases h with hres | ⟨row', hrow', hop', hne⟩
  · rw [toNat_ushiftRight_opcode] at hres; omega
  · obtain ⟨m, hm, rfl⟩ := mem_opcodeRows.mp hrow'
    have hnm : n = m := by
      rw [← hop, ← toNat_ushiftRight_opcode, hop', toNat_ushiftRight_opcode, opcodeRow,
        field_place_same (n := 4) _ 60 (Nat.le_refl 64), BitVec.toNat_ofNat, Nat.mod_eq_of_lt (by omega)]
    exact hne (hnm ▸ hmatch)

/-- Settles O11: such a word does not decode, and what it leaves is `rejectEffect`. -/
theorem illegalWordsAreAnsweredAndChangeNothing : Obligations.IllegalWordsAreAnsweredAndChangeNothing := by
  intro s w ps hw hr hb hq h
  refine ⟨illegal { s with cmdQueue := ps }, ?_, rfl, rfl, rfl⟩
  rw [step_presented hr hb hq, runPresented_word (s := { s with cmdQueue := ps }) hw,
    runWord_of_not_decode (not_decode_of_illegal h)]

/-! ### Refused and performed commands -/

/-- A micro-step list that ends answers `OK`, and one that waits answers nothing (R83, R98). -/
theorem perform_rsp_ok {ops : List MicroOp} {s : State} (h : s.rsp = none) {r : Response}
    (hr : (perform ops s).rsp = some r) : r.status = .ok := by
  induction ops generalizing s with
  | nil => cases hr; rfl
  | cons op ops ih =>
    have h' : (doOp op s).rsp = none := (doOp_rsp op s).trans h
    rw [perform_cons] at hr
    split at hr
    · cases h'.symm.trans hr
    · exact ih h' hr

/-- Settles O46, by the cases of a command: it is refused, answers a glyph, or performs its micro-steps. -/
theorem refusedExactlyOutsideTheDomain : Obligations.RefusedExactlyOutsideTheDomain := by
  intro i s _
  obtain ⟨t, ht, hc⟩ := exec_cases i s
  cases hc with
  | refused hwf => exact ⟨fun _ => ⟨_, ht, rfl, rfl, rfl⟩, fun h => absurd (hwf.symm.trans h) Bool.false_ne_true⟩
  | encoded d hi =>
    subst hi
    exact ⟨fun h => absurd h.symm Bool.false_ne_true, fun _ => ⟨_, ht, fun r hr => by cases hr; rfl⟩⟩
  | performed hwf =>
    exact ⟨fun h => absurd (h.symm.trans hwf) Bool.false_ne_true, fun _ => ⟨_, ht, fun r => perform_rsp_ok (prepare_rsp i s)⟩⟩

theorem nextAnswers_prepare (i : Instr) (s : State) (n : Nat) : nextAnswers (prepare i s) n = nextAnswers s n :=
  nextAnswers_congr (prepare_answers i s) (congrArg State.sampleNo (prepare_offOperands i s) :) n

@[simp] theorem prepare_allAck (i : Instr) (s : State) : (prepare i s).allAck = true :=
  (congrArg State.allAck (prepare_offOperands i s) :)

/-- A command that is not refused and sends a frame ends as `frameEffect` says, from its prepared registers (R114). -/
theorem exec_frameEffect {i : Instr} {s : State} (hc : s.cfg.wf = true) (hack : s.cfg.ackWait = false)
    (hwf : i.wf s.cfg = true) {len : Nat} {pos : Byte} (h : frameOf i s = some (len, pos)) :
    exec i s = .next (frameEffect len pos (prepare i s)) := by
  rw [exec_frame hc hwf h, sendFrame_eq (by rwa [prepare_cfg])]

/-- Settles O33: the events that `frameEffect` appends are three transactions, and each is received as it was sent. -/
theorem frameOnTheWire : Obligations.FrameOnTheWire := by
  intro i s len pos hc hack hwf hf _ _ _ _
  have htr : (frameEffect len pos (prepare i s)).tr =
      s.tr ++ transactionsEvents (frameBytes len pos (prepare i s)) (nextAnswers s (3 + len)) := by
    rw [← nextAnswers_prepare i, ← prepare_tr i s]; rfl
  have hrecv := receive_transactions (frameBytes_ne_nil len pos (prepare i s)) (as := nextAnswers s (3 + len))
    (by rw [nextAnswers_length, byteCount_frameBytes]) []
  exact ⟨_, _, exec_frameEffect hc hack hwf hf, htr, rfl, rfl, congrArg Receiver.log hrecv⟩

/-! ### The response record -/

/-- With `ACK_WAIT` false a micro-step list answers `OK` with `ALL_ACK` as it is at its end (R83). -/
theorem perform_rsp {s : State} (h : s.cfg.ackWait = false) (ops : List MicroOp) :
    (perform ops s).rsp = some ⟨.ok, (perform ops s).allAck, 0⟩ := by rw [perform_eq h]; rfl

/-- `ALL_ACK` at the end of a command is the AND over the bytes it wrote (R23, R83). -/
theorem perform_microOps_allAck {i : Instr} {s : State} (hc : s.cfg.wf = true) (hack : s.cfg.ackWait = false)
    (hwf : i.wf s.cfg = true) :
    (perform (microOps i (prepare i s)) (prepare i s)).allAck = allAcked s (bytesWritten i s) := by
  have hack' : (prepare i s).cfg.ackWait = false := by rwa [prepare_cfg]
  cases hf : frameOf i s with
  | some frame =>
    obtain ⟨len, pos⟩ := frame
    rw [microOps_frame hc hwf hf, ← sendFrame, sendFrame_eq hack']
    simp [frameEffect, allAcked, bytesWritten, hf, nextAnswers_prepare]
  | none =>
    rw [perform_eq hack']
    cases i with
    | start => rfl
    | stop => rfl
    | wrbyte data =>
      simp [microOps, performAll_writeByte, byteEffect, respond, answerAt_prepare, allAcked, bytesWritten, frameOf,
        nextAnswers_one]
    | encode data => rfl
    | setbrt level on => rfl
    | setfmt len lz dots => rfl
    | _ => cases hf

/-- Settles O47: ENCODE answers its glyph, and the other commands answer what `ALL_ACK` is after their bytes. -/
theorem responseRecord : Obligations.ResponseRecord := by
  refine ⟨fun i s hc hwf hack => ?performed, fun i s hwf => ?refused, fun _ => rfl, rfl, rfl, rfl, fun st => ?codes⟩
  case performed =>
    by_cases hi : ∃ d, i = .encode d
    · obtain ⟨d, rfl⟩ := hi
      exact ⟨_, rfl, rfl, rfl⟩
    · have hexec := exec_eq (fun d hd => hi ⟨d, hd⟩) s
      rw [if_pos hwf] at hexec
      have hall := perform_microOps_allAck hc hack hwf
      refine ⟨_, hexec, ?_, hall⟩
      rw [perform_rsp (by rwa [prepare_cfg]), hall]
      split
      · next d => exact absurd ⟨d, rfl⟩ hi
      · rfl
  case refused =>
    obtain ⟨t, ht, hx⟩ := exec_cases i s
    cases hx with
    | refused _ => exact ⟨_, ht, rfl⟩
    | encoded d hi => subst hi; cases hwf
    | performed h => exact absurd (hwf.symm.trans h) Bool.false_ne_true
  case codes => cases st <;> decide

end Sys2Proof.Machine

/-! ## The command bytes as numbers -/

namespace Sys2Proof.Machine

/-- Settles O4: each word is evaluated by the decoder, field by field. -/
theorem decodeSampleWords : Obligations.DecodeSampleWords :=
  ⟨rfl, rfl, rfl, rfl, rfl, rfl, rfl, rfl, rfl⟩

theorem toNat_posMasked (pos : Byte) : (posMasked pos).toNat = pos.toNat % 4 :=
  Nat.and_two_pow_sub_one_eq_mod pos.toNat 2

/-- The position bits lie beside the bits of the address command (R63). -/
theorem toNat_addressCommand (pos : Byte) : (addressCommand pos).toNat = 0xC0 + pos.toNat % 4 := by
  have hbeside : (0xC0 : Byte) &&& posMasked pos = 0 := by
    rw [posMasked, BitVec.and_comm, BitVec.and_assoc]; exact BitVec.and_zero
  rw [addressCommand, ← BitVec.add_eq_or_of_and_eq_zero _ _ hbeside, BitVec.toNat_add, toNat_posMasked]
  exact Nat.mod_eq_of_lt (show 0xC0 + pos.toNat % 4 < 2 ^ 8 by omega)

/-- The on bit lies beside the level bits (R69). -/
theorem toNat_packBright (level : Byte) (on : Bool) :
    (packBright level on).toNat = level.toNat % 8 + (if on then 8 else 0) := by
  have hlevel : ((level &&& 0x7).setWidth 4).toNat = level.toNat % 8 := by
    have hmask : (level &&& 0x7).toNat = level.toNat % 8 := Nat.and_two_pow_sub_one_eq_mod level.toNat 3
    rw [BitVec.toNat_setWidth, hmask]
    exact Nat.mod_eq_of_lt (show level.toNat % 8 < 2 ^ 4 by omega)
  have hon : ((BitVec.ofBool on).setWidth 4 <<< 3).toNat = if on then 8 else 0 := by cases on <;> rfl
  have hbeside : (level &&& 0x7).setWidth 4 &&& ((BitVec.ofBool on).setWidth 4 <<< 3) = 0#4 := by
    rw [BitVec.setWidth_and, BitVec.and_assoc]
    cases on <;> exact BitVec.and_zero
  rw [packBright, ← BitVec.add_eq_or_of_and_eq_zero _ _ hbeside, BitVec.toNat_add, hlevel, hon]
  exact Nat.mod_eq_of_lt (show _ < 2 ^ 4 by split <;> omega)

/-- Settles O5: the masked operands lie beside the constant bits; the control byte is a fact about 16 values of `BRIGHT`. -/
theorem commandBytesAndBrightnessPacking : Obligations.CommandBytesAndBrightnessPacking :=
  ⟨toNat_addressCommand, by decide, toNat_packBright⟩

end Sys2Proof.Machine

/-! ## Transport: the procedures in closed form, event counts, the loopback, and the wait under `ACK_WAIT`

SUPPORT for the statements of the family 40_transport.md. -/

namespace Sys2Proof.Machine

/-! ### START, STOP and WRBYTE in closed form -/

/-- A list without samples is performed to its response, for both values of `ACK_WAIT` (R98). -/
theorem perform_of_no_sample {ops : List MicroOp} (h : MicroOp.sample ∉ ops) (s : State) :
    perform ops s = respond .ok 0 { performAll ops s with todo := [] } := by
  have happend := perform_append h [] s
  rwa [List.append_nil] at happend

/-- Everything START does (R91). -/
theorem exec_start (s : State) :
    exec .start s =
      .next (respond .ok 0 { accept s with dioOe := true, upc := 2, tr := s.tr ++ startEvents }) := by
  rw [exec, execStart, perform_of_no_sample (by decide), performAll_start]
  rfl

/-- Everything STOP does (R92). -/
theorem exec_stop (s : State) :
    exec .stop s =
      .next (respond .ok 0 { accept s with clkOe := false, dioOe := false, upc := 6, tr := s.tr ++ stopEvents }) := by
  rw [exec, execStop, perform_of_no_sample (by decide), performAll_stop]
  rfl

/-- Everything WRBYTE does when its sample is taken once (R95). -/
theorem exec_wrbyte {s : State} (h : s.cfg.ackWait = false) (b : Byte) :
    exec (.wrbyte b) s = .next (respond .ok 0 (byteEffect b (accept s))) := by
  rw [exec, execWrbyte, perform_eq (s := accept s) h, performAll_writeByte]
  rfl

/-- Settles O13: the command's closed form, and the receiver run on its two events from each of the four pin states. -/
theorem startEffect : Obligations.StartEffect :=
  ⟨fun s => ⟨_, exec_start s, rfl, rfl, rfl⟩, by decide, rfl⟩

/-- Settles O14: the command's closed form, and the receiver run on its six events from each of the four pin states. -/
theorem stopEffect : Obligations.StopEffect :=
  ⟨fun s => ⟨_, exec_stop s, rfl, rfl, rfl⟩, by decide, rfl⟩

/-- Settles O16: the pins are those of the closed forms, and WRBYTE leaves the data pin driven when the answer is 0. -/
theorem pinsAfterEachProcedure : Obligations.PinsAfterEachProcedure := by
  intro s b hack
  refine ⟨⟨_, exec_start s, rfl⟩, ⟨_, exec_stop s, rfl⟩, ⟨_, exec_wrbyte hack b, ?_⟩⟩
  have hpins : (respond .ok 0 (byteEffect b (accept s))).dioOe = !answerAt s 0 := rfl
  rw [hpins]
  cases answerAt s 0 <;> rfl

/-! ### Event counts (R99) -/

theorem eventCounts_append (xs ys : List Event) : eventCounts (xs ++ ys) = eventCounts xs + eventCounts ys := by
  simp [eventCounts]

theorem eventCounts_bitSlot (v : Bool) : eventCounts (bitSlotEvents v) = (3, 3, 0, 6) := by cases v <;> rfl

theorem eventCounts_ackSlot (a : Bool) :
    eventCounts (ackSlotEvents a) = if a = false then (5, 4, 1, 10) else (4, 4, 1, 9) := by cases a <;> rfl

theorem eventCounts_dataSlots (b : Byte) : eventCounts (dataSlotEvents b) = (24, 24, 0, 48) := by
  simp only [dataSlotEvents_eq, eventCounts_append, eventCounts_bitSlot]
  rfl

theorem eventCounts_byte (b : Byte) (a : Bool) :
    eventCounts (byteEvents b a) = if a = false then (29, 28, 1, 58) else (28, 28, 1, 57) := by
  rw [byteEvents, eventCounts_append, eventCounts_dataSlots, eventCounts_ackSlot]
  cases a <;> rfl

/-- The trace of an acknowledgement slot without the flags, which record no event. -/
theorem performAll_ackSlotOps_tr (s : State) :
    (performAll ackSlotOps s).tr = s.tr ++ ackSlotEvents (answerAt s 0) := by
  have hfold : performAll (ackSlotOps ++ [.foldAck]) s = foldAck (performAll ackSlotOps s) := performAll_append ..
  rw [← foldAck_tr, ← hfold, performAll_ackSlot]

/-- With `ACK_WAIT` false a list appends the events of its entries. -/
theorem perform_tr {s : State} (h : s.cfg.ackWait = false) (ops : List MicroOp) :
    (perform ops s).tr = (performAll ops s).tr := by rw [perform_eq h]; rfl

/-- Settles O18: each procedure appends its event list, and the lists have the counts of R99. -/
theorem eventCountsOfProcedures : Obligations.EventCountsOfProcedures := by
  intro s hack
  simp only [perform_tr hack]
  refine ⟨⟨startEvents, ?start, rfl⟩, ⟨stopEvents, ?stop, rfl⟩, fun v => ⟨bitSlotEvents v, ?bit, eventCounts_bitSlot v⟩,
    ⟨_, performAll_ackSlotOps_tr s, eventCounts_ackSlot _⟩, fun b => ⟨_, ?byte, eventCounts_byte b (answerAt s 0)⟩⟩
  case start => rw [performAll_start]
  case stop => rw [performAll_stop]
  case bit => rw [performAll_bitSlot]
  case byte => rw [performAll_writeByte]; rfl

theorem encode_wrbyte (b : Byte) : encode (.wrbyte b) = 0x2000000000000000 ||| b.setWidth 64 := by
  rw [encode, place, BitVec.shiftLeft_zero]

/-- Settles O15: the closed form is `byteEffect`; length and delays are two of the columns of R99. -/
theorem wrbyteEffect : Obligations.WrbyteEffect := by
  refine ⟨fun b s hack => ⟨_, exec_wrbyte hack b, rfl, rfl, rfl⟩, fun b a => ?_, encode_wrbyte⟩
  have hlength : (byteEvents b a).length = _ := congrArg (·.2.2.2) (eventCounts_byte b a)
  have hdelays : (byteEvents b a).count .t = _ := congrArg (·.2.1) (eventCounts_byte b a)
  rw [hlength, hdelays]
  cases a <;> exact ⟨rfl, rfl⟩

/-! ### The loopback (R97) -/

/-- A bit slot shows its bit at its one clock rise, whatever the pins were before. -/
theorem levelsAtClockRise_bitSlot (p : Bool × Bool) (v : Bool) (es : List Event) :
    levelsAtClockRise p (bitSlotEvents v ++ es) = v :: levelsAtClockRise (false, !v) es := by
  cases v <;> rfl

/-- The first rises of a list that begins with bit slots carry the bits of the slots. -/
theorem levelsAtClockRise_bitSlots (p : Bool × Bool) (bits : List Bool) (es : List Event) :
    (levelsAtClockRise p (bits.flatMap bitSlotEvents ++ es)).take bits.length = bits := by
  induction bits generalizing p with
  | nil => rfl
  | cons v bits ih =>
    rw [List.flatMap_cons, List.append_assoc, levelsAtClockRise_bitSlot, List.length_cons, List.take_succ_cons, ih]

/-- In bit slots the data pin is written after the clock fell and before it rises. -/
theorem dataMovesOnlyWhileLow_bitSlots (low : Bool) (bits : List Bool) :
    dataMovesOnlyWhileLow low (bits.flatMap bitSlotEvents) = true := by
  induction bits generalizing low with
  | nil => rfl
  | cons v bits ih => cases v <;> exact ih false

/-- The data slots of a byte are the bit slots of its bits, least significant first (R60). -/
theorem dataSlotEvents_eq_bitSlots (b : Byte) : dataSlotEvents b = (byteBits b).flatMap bitSlotEvents := by
  rw [dataSlotEvents, byteBits, List.flatMap_map]

/-- Settles O17: the command appends eight bit slots and the acknowledgement slot, and the bits add up to the byte. -/
theorem wrbyteLoopback : Obligations.WrbyteLoopback := by
  intro b s hack
  have hlevels : (levelsAtClockRise (s.clkOe, s.dioOe) (byteEvents b (answerAt s 0))).take 8 = byteBits b := by
    rw [byteEvents, dataSlotEvents_eq_bitSlots]; exact levelsAtClockRise_bitSlots _ (byteBits b) _
  have hslots : (byteEvents b (answerAt s 0)).take 48 = dataSlotEvents b :=
    List.take_left' (dataSlotEvents_length b)
  refine ⟨_, byteEvents b (answerAt s 0), exec_wrbyte hack b, rfl, hlevels, ?_, ?_⟩
  · rw [hlevels, byteOfLevels_byteBits]
  · rw [hslots, dataSlotEvents_eq_bitSlots]; exact dataMovesOnlyWhileLow_bitSlots ..

/-! ### The wait under `ACK_WAIT` (R98) -/

/-- The state after n samples that all read 1: the samples are in the trace and n answers are taken. -/
def onesSampled (n : Nat) (s : State) : State :=
  { s with
    smp := s.smp || decide (0 < n), upc := s.upc + n, tr := s.tr ++ List.replicate n (.s true),
    answers := s.answers.drop n, sampleNo := s.sampleNo + n }

theorem onesSampled_zero (s : State) : onesSampled 0 s = s := by simp [onesSampled]

theorem onesSampled_succ (n : Nat) (s : State) : onesSampled (n + 1) s = onesSampled n (onesSampled 1 s) := by
  simp [onesSampled, List.replicate_succ, Nat.add_assoc, Nat.add_comm 1 n]

theorem doOp_sample_one {s : State} (hd : s.dioOe = false) (ha : answerAt s 0 = true) :
    doOp .sample s = onesSampled 1 s := by
  rw [doOp_sample_released hd, ha]; simp [onesSampled]

/-- Under `ACK_WAIT`, a block whose next step takes a sample with the data pin released, `ops` to follow it (R98, log 7). -/
structure AtSample (ops : List MicroOp) (s : State) : Prop where
  ackWait : s.cfg.ackWait = true
  resetIn : s.resetIn = false
  busy : s.busy = true
  dioOe : s.dioOe = false
  todo : s.todo = .sample :: ops

theorem AtSample.after_ones {ops : List MicroOp} {s : State} (h : AtSample ops s) (n : Nat) :
    AtSample ops (onesSampled n s) := ⟨h.ackWait, h.resetIn, h.busy, h.dioOe, h.todo⟩

theorem AtSample.step_eq {ops : List MicroOp} {s : State} (h : AtSample ops s) :
    step s = .next (perform (.sample :: ops) s) := by
  rw [step_busy h.resetIn h.busy, resume, h.todo]

/-- A sample that reads 1 is the whole step (R98, log 7). -/
theorem AtSample.step_one {ops : List MicroOp} {s : State} (h : AtSample ops s) (ha : answerAt s 0 = true) :
    step s = .next (onesSampled 1 s) := by
  have hwait : waits .sample (onesSampled 1 s) = true :=
    waits_iff.mpr ⟨rfl, h.ackWait, by simp [onesSampled]⟩
  rw [h.step_eq, perform_cons, doOp_sample_one h.dioOe ha, if_pos hwait, ← h.todo]
  rfl

/-- While the responder answers ones, each step takes one sample and the block stays where it is. -/
theorem AtSample.run_ones {ops : List MicroOp} {n : Nat} {s : State} {rest : List Bool} (h : AtSample ops s)
    (ha : s.answers = List.replicate n true ++ rest) (k : Nat) :
    Sys2Proof.core.run (n + k) s = Sys2Proof.core.run k (onesSampled n s) := by
  induction n generalizing s with
  | zero => rw [onesSampled_zero, Nat.zero_add]
  | succ n ih =>
    have hone : answerAt s 0 = true := by simp [answerAt, ha, List.replicate_succ]
    have hrest : (onesSampled 1 s).answers = List.replicate n true ++ rest := by
      simp [onesSampled, ha, List.replicate_succ]
    rw [Nat.add_right_comm, run_succ (h.step_one hone), ih (h.after_ones 1) hrest, ← onesSampled_succ]

/-- Settles O24: n samples are taken in n steps (`AtSample.run_ones`), and what they leave is `onesSampled`. -/
theorem ackWaitHangsWithoutAcknowledgement : Obligations.AckWaitHangsWithoutAcknowledgement := by
  intro n s rest hack hr hb htodo hd ha
  obtain ⟨ops, hops⟩ := List.head?_eq_some_iff.mp htodo
  have hat : AtSample ops s := ⟨hack, hr, hb, hd, hops⟩
  have hrest : s.answers.drop n = rest := by simp [ha]
  exact ⟨_, hat.run_ones ha 0, hb, rfl, rfl, rfl, by simp [State.outside, onesSampled, hrest]⟩

/-- A micro-step list performed does not depend on what was left to do before (log 8). -/
theorem perform_launch (l ops : List MicroOp) (s : State) : perform ops (launch l s) = perform ops s := by
  induction ops generalizing s with
  | nil => rfl
  | cons op ops ih => rw [perform_cons, perform_cons, doOp_launch, waits_launch, ih]; rfl

/-- `write_byte(b)` up to its sample: the data slots and the first half of the acknowledgement slot (R94, R95). -/
def beforeSampleOps (b : Byte) : List MicroOp :=
  dataSlotOps b ++ [.pin .clk .drive, .pin .dio .release, .delay, .pin .clk .release, .delay]

/-- `write_byte(b)` after its sample (R94, R95). -/
def afterSampleOps : List MicroOp := [.holdIfAcked, .delay, .pin .clk .drive, .delay, .foldAck]

theorem writeByteOps_eq (b : Byte) : writeByteOps b = beforeSampleOps b ++ .sample :: afterSampleOps := by
  simp [writeByteOps, beforeSampleOps, dataSlotOps, ackSlotOps, afterSampleOps]

theorem sample_not_mem_beforeSampleOps (b : Byte) : MicroOp.sample ∉ beforeSampleOps b := by
  have hslot : ∀ v : Bool, MicroOp.sample ∉ bitSlotOps v := by decide
  simp [beforeSampleOps, dataSlotOps, hslot]

theorem performAll_beforeSample (b : Byte) (s : State) :
    performAll (beforeSampleOps b) s =
      { s with
        clkOe := false, dioOe := false, upc := s.upc + 53,
        tr := s.tr ++ (dataSlotEvents b ++ [.c0, .d1, .t, .c1, .t]) } := by
  rw [beforeSampleOps, performAll_append, performAll_dataSlots]
  simp [performAll, doOp, pin, pinEvent, Drive.oe, delay, emit]

/-- From a sample that reads 0 to the end of the byte. -/
theorem performAll_sample_zero {s : State} (hd : s.dioOe = false) (ha : answerAt s 0 = false) :
    performAll (.sample :: afterSampleOps) s =
      { s with
        clkOe := true, dioOe := true, smp := false, lastAck := true, upc := s.upc + 5,
        tr := s.tr ++ [.s false, .d0, .t, .c0, .t], answers := s.answers.drop 1, sampleNo := s.sampleNo + 1 } := by
  rw [performAll_cons, doOp_sample_released hd, ha]
  simp [performAll, afterSampleOps, doOp, holdIfAcked, pin, pinEvent, Drive.oe, delay, emit, foldAck, ackedOf]

/-- The block at the sample of `WRBYTE b`. -/
def wrbyteAtSample (b : Byte) (s : State) : State :=
  launch (.sample :: afterSampleOps) (performAll (beforeSampleOps b) (accept s))

theorem wrbyteAtSample_eq (b : Byte) (s : State) : wrbyteAtSample b s =
    { accept s with
      clkOe := false, dioOe := false, upc := 53, tr := s.tr ++ (dataSlotEvents b ++ [.c0, .d1, .t, .c1, .t]),
      todo := .sample :: afterSampleOps } := by
  rw [wrbyteAtSample, performAll_beforeSample]; rfl

theorem wrbyteAtSample_atSample {s : State} (hack : s.cfg.ackWait = true) (hr : s.resetIn = false) (b : Byte) :
    AtSample afterSampleOps (wrbyteAtSample b s) := by
  rw [wrbyteAtSample_eq]; exact ⟨hack, hr, rfl, rfl, rfl⟩

/-- The step that takes a `WRBYTE` is the step of the block at that byte's first sample. -/
theorem exec_wrbyte_eq_step {s : State} (hack : s.cfg.ackWait = true) (hr : s.resetIn = false) (b : Byte) :
    exec (.wrbyte b) s = step (wrbyteAtSample b s) := by
  rw [(wrbyteAtSample_atSample hack hr b).step_eq, wrbyteAtSample, perform_launch, exec, execWrbyte, writeByteOps_eq,
    perform_append (sample_not_mem_beforeSampleOps b)]

/-- The first sample that reads 0 ends the byte and the command (R98). -/
theorem AtSample.step_zero {s : State} (h : AtSample afterSampleOps s) (ha : answerAt s 0 = false) :
    step s = .next (respond .ok 0
      { s with
        clkOe := true, dioOe := true, smp := false, lastAck := true, upc := s.upc + 5, todo := [],
        tr := s.tr ++ [.s false, .d0, .t, .c0, .t], answers := s.answers.drop 1, sampleNo := s.sampleNo + 1 }) := by
  have hz : everySampleZero s ((MicroOp.sample :: afterSampleOps).count .sample) := by
    intro k hk
    obtain rfl : k = 0 := Nat.lt_one_iff.mp hk
    exact ha
  rw [h.step_eq, perform_of_everySampleZero hz, performAll_sample_zero h.dioOe ha]

/-- n ones and then a zero: the block is n + 1 steps at its sample, and the command then ends. -/
theorem AtSample.run_acked {n : Nat} {s : State} {rest : List Bool} (h : AtSample afterSampleOps s)
    (ha : s.answers = List.replicate n true ++ false :: rest) :
    Sys2Proof.core.run (n + 1) s = .next (respond .ok 0
      { s with
        clkOe := true, dioOe := true, smp := false, lastAck := true, upc := s.upc + n + 5, todo := [],
        tr := s.tr ++ List.replicate n (.s true) ++ [.s false, .d0, .t, .c0, .t], answers := rest,
        sampleNo := s.sampleNo + n + 1 }) := by
  have hzero : answerAt (onesSampled n s) 0 = false := by simp [answerAt, onesSampled, ha]
  have hrest : (s.answers.drop n).drop 1 = rest := by simp [ha]
  rw [h.run_ones ha 1, run_succ ((h.after_ones n).step_zero hzero), run_zero, ← hrest]
  rfl

/-- Runs of at least one step depend on the first step only. -/
theorem run_congr_step {s t : State} (h : step s = step t) (n : Nat) :
    Sys2Proof.core.run (n + 1) s = Sys2Proof.core.run (n + 1) t := by
  have h' : Sys2Proof.core.step s = Sys2Proof.core.step t := h
  simp only [Host.Core.run, h']

/-- Settles O22: the step that takes the command is the block's first at the sample; n ones are sampled, then the zero. -/
theorem ackWaitSamplesUntilAcknowledged : Obligations.AckWaitSamplesUntilAcknowledged := by
  intro n b s ps rest hack hw hr hb hq ha
  have htake : step s = step (wrbyteAtSample b { s with cmdQueue := ps }) := by
    rw [step_presented hr hb hq, runPresented_encode (s := { s with cmdQueue := ps }) hw rfl]
    exact exec_wrbyte_eq_step (s := { s with cmdQueue := ps }) hack hr b
  have hat := wrbyteAtSample_atSample (s := { s with cmdQueue := ps }) hack hr b
  have hrun := (run_congr_step htake n).trans (hat.run_acked (rest := rest) (by rw [wrbyteAtSample_eq]; exact ha))
  rw [wrbyteAtSample_eq] at hrun
  refine ⟨_, hrun, rfl, ?regs, ?outside⟩
  case regs => simp [State.regs, waitedByteEvents, hb]
  case outside => simp [State.outside, Nat.add_assoc]

/-! ### Both values of `ACK_WAIT` give the same command when every sample reads 0 (R98) -/

theorem loadDigits_setAckWait (b : Bool) (segs : Vector Byte 4) (len : Nat) (s : State) :
    loadDigits segs len (setAckWait b s) = setAckWait b (loadDigits segs len s) := by
  rw [loadDigits_eq, loadDigits_eq]; rfl

theorem overlayDots_setAckWait (b : Bool) (len : Nat) (mask : Byte) (s : State) :
    overlayDots len mask (setAckWait b s) = setAckWait b (overlayDots len mask s) := by
  have hloop : ∀ t : State, overlayLoop len (setAckWait b t) = setAckWait b (overlayLoop len t) := by
    intro t
    induction len with
    | zero => rfl
    | succ n ih => rw [overlayLoop, ih]; rfl
  exact hloop { s with msk := mask }

theorem formatNumber_setAckWait (b : Bool) (bmag : Nat) (neg : Bool) (value : Nat) (lz : Bool) (len : Nat) (s : State) :
    formatNumber bmag neg value lz len (setAckWait b s) = setAckWait b (formatNumber bmag neg value lz len s) := by
  unfold formatNumber
  split
  · simp only [formatZero, blankDigits_eq]; rfl
  · simp only [formatLoop_eq]; rfl

/-- Filling the digit buffer reads the glyphs and not `ACK_WAIT`, for any digit count. -/
theorem fillBuffer_setAckWait (b : Bool) (base : Int) (value : Nat) (dots : Byte) (lz : Bool) (len : Nat) (s : State) :
    fillBuffer base value dots lz len (setAckWait b s) = setAckWait b (fillBuffer base value dots lz len s) := by
  unfold fillBuffer
  rw [← overlayDots_setAckWait, ← formatNumber_setAckWait]
  rfl

theorem prepare_setAckWait (b : Bool) (i : Instr) (s : State) :
    prepare i (setAckWait b s) = setAckWait b (prepare i s) := by
  have hload : loadOperands i (accept (setAckWait b s)) = setAckWait b (loadOperands i (accept s)) := by
    cases i with
    | setseg seg0 seg1 seg2 seg3 len pos => exact loadDigits_setAckWait b _ _ (accept s)
    | _ => rfl
  rw [prepare, hload, prepare, fillShown, fillShown]
  split
  · rfl
  · exact fillBuffer_setAckWait ..

theorem microOps_setAckWait (b : Bool) (i : Instr) (s : State) : microOps i (setAckWait b s) = microOps i s := by
  cases i <;> rfl

/-- A list whose samples all read 0 is performed alike for both values of `ACK_WAIT`. -/
theorem perform_setAckWait {ops : List MicroOp} {s : State} (h : everySampleZero s (ops.count .sample)) (b : Bool) :
    perform ops (setAckWait b s) = setAckWait b (perform ops s) := by
  rw [perform_of_everySampleZero (s := setAckWait b s) h, perform_of_everySampleZero h, performAll_setAckWait]
  rfl

/-- A command samples once for each byte it writes (R83, R116). -/
theorem microOps_count_sample {i : Instr} {s : State} (hc : s.cfg.wf = true) (hwf : i.wf s.cfg = true) :
    (microOps i (prepare i s)).count .sample = bytesWritten i s := by
  cases hf : frameOf i s with
  | some frame => rw [microOps_frame hc hwf hf, setSegmentsOps_count_sample]; simp [bytesWritten, hf]
  | none =>
    cases i with
    | start => rfl
    | stop => rfl
    | wrbyte data => exact writeByteOps_count_sample data
    | encode data => rfl
    | setbrt level on => rfl
    | setfmt len lz dots => rfl
    | _ => cases hf

/-- The longest frame has seven bytes (R116). -/
theorem bytesWritten_le_seven {i : Instr} {s : State} (hc : s.cfg.wf = true) (hwf : i.wf s.cfg = true)
    (h4 : s.fmtLen.toNat ≤ 4) : bytesWritten i s ≤ 7 := by
  have explicit : ∀ len : Byte, lenAdmitted s.cfg len = true → 3 + len.toNat ≤ 7 := fun len h => by
    simp only [lenAdmitted, maxDigits_of_wf hc, Bool.and_eq_true, decide_eq_true_eq] at h; omega
  have stored : 3 + s.fmtLen.toNat ≤ 7 := by omega
  cases i with
  | start => exact Nat.zero_le _
  | stop => exact Nat.zero_le _
  | wrbyte data => exact Nat.le_add_left 1 6
  | encode data => exact Nat.zero_le _
  | setbrt level on => exact Nat.zero_le _
  | setfmt len lz dots => exact Nat.zero_le _
  | setseg seg0 seg1 seg2 seg3 len pos => exact explicit len hwf
  | showbase base value dots lz len pos => exact explicit len (Bool.and_eq_true_iff.mp hwf).2
  | showdec num dots lz len pos => exact explicit len hwf
  | showhex value dots lz len pos => exact explicit len hwf
  | showbaseD base value pos => exact stored
  | showdecD num pos => exact stored
  | showhexD value pos => exact stored

theorem wf_setAckWait (b : Bool) (i : Instr) (s : State) : i.wf (setAckWait b s).cfg = i.wf s.cfg := by cases i <;> rfl

/-- When the next seven samples read 0, what a command answers depends on `ACK_WAIT` in the parameter only. -/
theorem exec_setAckWait {i : Instr} {s : State} (hc : s.cfg.wf = true) (h4 : s.fmtLen.toNat ≤ 4)
    (hz : everySampleZero s 7) : ∃ t, exec i s = .next t ∧ ∀ b, exec i (setAckWait b s) = .next (setAckWait b t) := by
  by_cases hi : ∃ d, i = .encode d
  · obtain ⟨d, rfl⟩ := hi
    exact ⟨_, rfl, fun _ => rfl⟩
  · have hexec := fun u => exec_eq (fun d hd => hi ⟨d, hd⟩) u
    refine ⟨_, hexec s, fun b => ?_⟩
    rw [hexec, wf_setAckWait]
    cases hwf : i.wf s.cfg with
    | false => rfl
    | true =>
      have hzero : everySampleZero (prepare i s) ((microOps i (prepare i s)).count .sample) := fun k hk => by
        rw [microOps_count_sample hc hwf] at hk
        rw [answerAt_prepare]
        exact hz k (hk.trans_le (bytesWritten_le_seven hc hwf h4))
      simp only [if_true, prepare_setAckWait, microOps_setAckWait, perform_setAckWait hzero]

/-- Settles O25: the command under the block's own value, and the same with the parameter set to either value. -/
theorem ackWaitVariantsAgreeWhenAcknowledged : Obligations.AckWaitVariantsAgreeWhenAcknowledged := by
  intro i s hc hack h4 hz
  obtain ⟨t, ht, hset⟩ := exec_setAckWait (i := i) hc h4 hz
  refine ⟨_, hset false, ?_⟩
  have htrue := hset true
  rwa [← hack, setAckWait_self, hack] at htrue

end Sys2Proof.Machine

/-! ## Encoder: the register commands, the overlay, SETSEG, and what a frame shows whatever is sampled

SUPPORT for the statements of the family 41_encoder.md. -/

namespace Sys2Proof

/-! ### Placed operands as the rules write them -/

theorem place_zero {n : Nat} (v : BitVec n) : place v 0 = v.setWidth 64 := BitVec.shiftLeft_zero _

theorem placeBit_eq (b : Bool) (lo : Nat) : placeBit b lo = Machine.bitWord b <<< lo := by cases b <;> rfl

end Sys2Proof

namespace Sys2Proof.Machine

/-! ### ENCODE (R110) -/

/-- The table entry of the low four bits. -/
theorem encodeDigit_eq (c : Config) (n : Nat) : encodeDigit c n = c.glyph.getD (n % 16) 0 := by
  rw [encodeDigit, show n &&& 0xF = n % 16 from Nat.and_two_pow_sub_one_eq_mod n 4]

theorem encodeDigit_masked (c : Config) (n : Nat) : encodeDigit c n = encodeDigit c (n &&& 0xF) := by
  rw [encodeDigit, encodeDigit, Nat.and_assoc, Nat.and_self]

/-- Every digit is an entry of the table, and these have bit 7 = 0 (R66). -/
theorem encodeDigit_bit7 {c : Config} (hc : c.wf = true) (n : Nat) : (encodeDigit c n).getLsbD 7 = false := by
  simp only [Config.wf, Bool.and_eq_true, List.all_eq_true, Bool.not_eq_true'] at hc
  obtain ⟨⟨⟨-, hglyph⟩, -⟩, -⟩ := hc
  have hlt : n % 16 < 16 := Nat.mod_lt n (by decide)
  have hentry : encodeDigit c n = c.glyph[n % 16] := by
    rw [encodeDigit_eq]
    simp [Vector.getD, hlt]
  rw [hentry]
  exact hglyph _ (by simp)

/-- Settles O26: the answer is a table entry, and ENCODE only accepts and responds. -/
theorem encodeEffect : Obligations.EncodeEffect := by
  refine ⟨fun d s => ⟨_, rfl, rfl, rfl, ?_⟩, encodeDigit_masked, fun c n hc => encodeDigit_bit7 hc n, fun d => ?_⟩
  · rw [respond_rsp, encodeDigit_eq]; rfl
  · rw [encode, place_zero]

/-! ### SETBRT (R112) -/

theorem packBright_eq (level : Byte) (on : Bool) :
    packBright level on = BitVec.ofNat 4 (level.toNat % 8 + (if on then 8 else 0)) := by
  rw [← toNat_packBright, BitVec.ofNat_toNat, BitVec.setWidth_eq]

/-- Settles O27: `BRIGHT` is the packed operand, and of a frame's bytes only the control byte reads it. -/
theorem setbrtEffect : Obligations.SetbrtEffect := by
  refine ⟨fun level on s => ⟨_, rfl, ?_, rfl, rfl⟩, fun level on => ?_, fun v len pos s => rfl⟩
  · rw [← packBright_eq]; rfl
  · rw [encode, placeBit_eq, place_zero]; rfl

/-! ### SETFMT (R113) -/

theorem lenAdmitted_iff {c : Config} (hc : c.wf = true) {len : Byte} :
    lenAdmitted c len = true ↔ 1 ≤ len.toNat ∧ len.toNat ≤ 4 := by
  simp [lenAdmitted, maxDigits_of_wf hc]

theorem lenAdmitted_eq_false_iff {c : Config} (hc : c.wf = true) {len : Byte} :
    lenAdmitted c len = false ↔ len.toNat < 1 ∨ 4 < len.toNat := by
  rw [← Bool.not_eq_true, lenAdmitted_iff hc]; omega

/-- Everything SETFMT does when its digit count is admitted. -/
theorem exec_setfmt {s : State} {len : Byte} (h : lenAdmitted s.cfg len = true) (lz : Bool) (dots : Byte) :
    exec (.setfmt len lz dots) s = .next (respond .ok 0 (writeFormat len lz dots (accept s))) := by
  rw [exec, execSetfmt, lenRefused_eq, h]; rfl

/-- Settles O28: admitted, the three fields are written (`exec_setfmt`); a digit count outside 1..4 is outside the domain
(`refusedExactlyOutsideTheDomain`). -/
theorem setfmtEffect : Obligations.SetfmtEffect := by
  intro len lz dots s hc
  refine ⟨fun h1 h4 => ?admitted, fun h => ?refused, ?word⟩
  case admitted =>
    rw [BitVec.ofNat_toNat]
    exact ⟨_, exec_setfmt ((lenAdmitted_iff hc).mpr ⟨h1, h4⟩) lz dots, rfl, rfl, rfl⟩
  case refused => exact (refusedExactlyOutsideTheDomain _ s hc).1 ((lenAdmitted_eq_false_iff hc).mpr h)
  case word => rw [encode, placeBit_eq]; rfl

/-! ### SETSEG (R115) -/

/-- The four operands read by position, in the two ways the model and the statement list them. -/
theorem segs_getD (seg0 seg1 seg2 seg3 : Byte) (k : Nat) :
    (#v[seg0, seg1, seg2, seg3] : Vector Byte 4).getD k 0 = [seg0, seg1, seg2, seg3].getD k 0 := by
  rw [digit_getD]
  split
  · next hk => interval_cases k <;> rfl
  · next hk => rw [List.getD_eq_default _ _ (Nat.not_lt.mp hk)]

/-- The registers in which SETSEG begins its frame. -/
theorem prepare_setseg (seg0 seg1 seg2 seg3 len pos : Byte) (s : State) :
    prepare (.setseg seg0 seg1 seg2 seg3 len pos) s =
      { accept s with dig := replaceDigits len.toNat (fun k => [seg0, seg1, seg2, seg3].getD k 0) s.dig } := by
  rw [prepare_of_not_formats rfl, loadOperands, loadDigits_eq]
  simp only [segs_getD]
  rfl

/-- Settles O29: admitted, the frame of the loaded bytes is sent (`exec_frameEffect`); a digit count outside 1..4 is outside the
domain (`refusedExactlyOutsideTheDomain`). -/
theorem setsegEffect : Obligations.SetsegEffect := by
  intro seg0 seg1 seg2 seg3 len pos s hc
  refine ⟨fun h1 h4 hack => ?admitted, fun h => ?refused, ?word⟩
  case admitted =>
    have hexec := exec_frameEffect (i := .setseg seg0 seg1 seg2 seg3 len pos) hc hack
      ((lenAdmitted_iff hc).mpr ⟨h1, h4⟩) rfl
    rw [prepare_setseg] at hexec
    exact ⟨_, hexec, rfl, rfl, rfl⟩
  case refused => exact (refusedExactlyOutsideTheDomain _ s hc).1 ((lenAdmitted_eq_false_iff hc).mpr h)
  case word => rw [encode, place_zero]; rfl

/-! ### The overlay (R111) -/

/-- The dot bit of a position stands in bit 7. -/
theorem getLsbD_dotBit (mask : Byte) (i b : Nat) :
    (dotBit mask i).getLsbD b = (decide (b = 7) && mask.getLsbD (7 - i)) := by
  have h80 : (0x80 : Byte).getLsbD b = decide (b = 7) := by
    rw [show (0x80 : Byte) = BitVec.twoPow 8 7 from rfl, BitVec.getLsbD_twoPow]
    simp [eq_comm]
  cases h : mask.getLsbD (7 - i) with
  | false => simp [dotBit, h]
  | true => rw [dotBit, if_pos h, h80, Bool.and_true]

/-- Settles O30: the closed form of the overlay, read bit by bit. -/
theorem overlayClosedForm : Obligations.OverlayClosedForm := by
  intro len mask s _ h4
  have heq := overlayDots_eq len h4 mask s
  refine ⟨by rw [heq], fun i hi b _ => ?_⟩
  rw [readDig_eq _ hi, readDig_eq _ hi, heq, replaceDigits_getElem _ _ _ _ hi, digit_getD, dif_pos hi]
  by_cases hl : i < len
  · simp [hl, getLsbD_dotBit]
  · simp [hl]

/-! ### What transactions show on the clock, whatever is sampled -/

/-- The clock and delay events of a byte (R95). -/
def byteClock : List Event :=
  (List.replicate 8 [.c0, .t, .t, .c1, .t]).flatten ++ [.c0, .t, .c1, .t, .t, .c0, .t]

/-- The clock and delay events of a transaction of n bytes (R61). -/
def transactionClock (n : Nat) : List Event := [.t] ++ (List.replicate n byteClock).flatten ++ [.t, .c1, .t, .t]

theorem filter_clock_byte (b : Byte) (a : Bool) : (byteEvents b a).filter isClockOrDelay = byteClock := by
  have hslot : ∀ v, (bitSlotEvents v).filter isClockOrDelay = [.c0, .t, .t, .c1, .t] := by decide
  have hack : (ackSlotEvents a).filter isClockOrDelay = [.c0, .t, .c1, .t, .t, .c0, .t] := by cases a <;> rfl
  simp only [byteEvents, dataSlotEvents_eq, List.filter_append, hslot, hack]
  rfl

theorem filter_clock_bytes {bs : List Byte} {as : List Bool} (h : as.length = bs.length) :
    (bytesEvents bs as).filter isClockOrDelay = (List.replicate bs.length byteClock).flatten := by
  induction bs generalizing as with
  | nil => simp [bytesEvents]
  | cons b bs ih =>
    obtain ⟨a, as, rfl⟩ := List.exists_cons_of_length_eq_add_one h
    rw [bytesEvents, List.filter_append, filter_clock_byte, ih (Nat.succ.inj h)]
    rfl

theorem filter_clock_transaction {bs : List Byte} {as : List Bool} (h : as.length = bs.length) :
    (transactionEvents bs as).filter isClockOrDelay = transactionClock bs.length := by
  rw [transactionEvents, List.filter_append, List.filter_append, filter_clock_bytes h]
  rfl

/-- The clock and delay events of transactions depend on their lengths only (R117). -/
theorem filter_clock_transactions {bss : List (List Byte)} {as : List Bool} (h : as.length = byteCount bss) :
    (transactionsEvents bss as).filter isClockOrDelay = bss.flatMap fun bs => transactionClock bs.length := by
  induction bss generalizing as with
  | nil => rfl
  | cons bs bss ih =>
    rw [byteCount_cons] at h
    rw [transactionsEvents, List.filter_append, filter_clock_transaction (by rw [List.length_take]; omega),
      ih (by rw [List.length_drop]; omega), List.flatMap_cons]

theorem count_t_transactionClock (n : Nat) : (transactionClock n).count .t = 4 + 28 * n := by
  have hbyte : byteClock.count .t = 28 := by decide
  simp [transactionClock, List.count_flatten, hbyte]
  omega

/-- The `delay()` calls of transactions: 4 for each, and 28 for each byte (R99). -/
theorem count_t_transactions {bss : List (List Byte)} {as : List Bool} (h : as.length = byteCount bss) :
    (transactionsEvents bss as).count .t = 4 * bss.length + 28 * byteCount bss := by
  rw [← List.count_filter (p := isClockOrDelay) rfl, filter_clock_transactions h]
  clear h
  induction bss with
  | nil => rfl
  | cons bs bss ih =>
    rw [List.flatMap_cons, List.count_append, ih, count_t_transactionClock, byteCount_cons, List.length_cons]
    omega

/-- Settles O31: the frame's closed form gives its trace, and the delays are those of three transactions of 3 + len bytes. -/
theorem frameBytesAndTrace : Obligations.FrameBytesAndTrace := by
  intro len pos s _ _ hack
  have hcount : byteCount (frameBytes len pos s) = 3 + len := byteCount_frameBytes len pos s
  refine ⟨rfl, hcount, by rw [sendFrame_eq hack]; rfl, ?_⟩
  rw [count_t_transactions (by rw [nextAnswers_length, hcount]), hcount]
  simp only [frameBytes, List.length_cons, List.length_nil]
  omega

/-! ### What transactions show on the data line, whatever is sampled -/

/-- The data line at the nine clock rises of a byte: its bits, then the released line of the acknowledgement slot (R97). -/
def byteLevels (b : Byte) : List Bool := byteBits b ++ [true]

/-- The data line at the clock rises of a transaction: its bytes, then the stop condition (R61). -/
def transactionLevels (bs : List Byte) : List Bool := bs.flatMap byteLevels ++ [false]

theorem levelsAtClockRise_ackSlot (p : Bool × Bool) (a : Bool) (es : List Event) :
    levelsAtClockRise p (ackSlotEvents a ++ es) = true :: levelsAtClockRise (true, !a) es := by cases a <;> rfl

theorem levelsAtClockRise_byte (p : Bool × Bool) (b : Byte) (a : Bool) (es : List Event) :
    levelsAtClockRise p (byteEvents b a ++ es) = byteLevels b ++ levelsAtClockRise (true, !a) es := by
  simp only [byteEvents, dataSlotEvents_eq, List.append_assoc, levelsAtClockRise_bitSlot, levelsAtClockRise_ackSlot]
  rfl

/-- The stop condition drives the data pin before the clock rises, so the last sample does not show. -/
theorem levelsAtClockRise_bytesStop (p : Bool × Bool) {bs : List Byte} {as : List Bool} (h : as.length = bs.length)
    (es : List Event) :
    levelsAtClockRise p (bytesEvents bs as ++ (stopEvents ++ es)) =
      transactionLevels bs ++ levelsAtClockRise (false, false) es := by
  induction bs generalizing p as with
  | nil => rw [List.length_eq_zero_iff.mp h]; rfl
  | cons b bs ih =>
    obtain ⟨a, as, rfl⟩ := List.exists_cons_of_length_eq_add_one h
    rw [bytesEvents, List.append_assoc, levelsAtClockRise_byte, ih _ (Nat.succ.inj h)]
    simp [transactionLevels]

/-- The data line at the clock rises of transactions is determined by their bytes (R117). -/
theorem levelsAtClockRise_transactions (p : Bool × Bool) {bss : List (List Byte)} {as : List Bool}
    (h : as.length = byteCount bss) :
    levelsAtClockRise p (transactionsEvents bss as) = bss.flatMap transactionLevels := by
  induction bss generalizing p as with
  | nil => rfl
  | cons bs bss ih =>
    rw [byteCount_cons] at h
    have hstart : ∀ es, levelsAtClockRise p (startEvents ++ es) = levelsAtClockRise (p.1, true) es := fun _ => rfl
    rw [transactionsEvents, transactionEvents, List.append_assoc, List.append_assoc, hstart,
      levelsAtClockRise_bytesStop _ (by rw [List.length_take]; omega), ih _ (by rw [List.length_drop]; omega),
      List.flatMap_cons]

/-! ### Two runs that differ in the responder's answers (R117, R164) -/

/-- The state with other answers of the responder to come. -/
def State.withOracle (answers : List Bool) (sampleNo : Nat) (s : State) : State :=
  { s with answers := answers, sampleNo := sampleNo }

theorem fillBuffer_withOracle (base : Int) (value : Nat) (dots : Byte) (lz : Bool) {len : Nat} (h1 : 1 ≤ len)
    (h4 : len ≤ 4) (s : State) (answers : List Bool) (n : Nat) :
    fillBuffer base value dots lz len (s.withOracle answers n) =
      (fillBuffer base value dots lz len s).withOracle answers n := by
  rw [fillBuffer_eq _ _ _ _ _ h1 h4, fillBuffer_eq _ _ _ _ _ h1 h4]
  rfl

theorem loadOperands_withOracle (i : Instr) (s : State) (answers : List Bool) (n : Nat) :
    loadOperands i (s.withOracle answers n) = (loadOperands i s).withOracle answers n := by
  cases i with
  | setseg seg0 seg1 seg2 seg3 len pos => simp only [loadOperands, loadDigits_eq]; rfl
  | _ => rfl

/-- A SHOW command that is not refused fills the buffer by a digit count in 1..4. -/
theorem fmtLen_loadOperands_bounds {i : Instr} {s : State} (hc : s.cfg.wf = true) (h1 : 1 ≤ s.fmtLen.toNat)
    (h4 : s.fmtLen.toNat ≤ 4) (hwf : i.wf s.cfg = true) (hf : formats i = true) :
    1 ≤ (loadOperands i (accept s)).fmtLen.toNat ∧ (loadOperands i (accept s)).fmtLen.toNat ≤ 4 := by
  obtain ⟨len, pos, hframe⟩ : ∃ len pos, frameOf i s = some (len, pos) := by
    cases i <;> cases hf <;> exact ⟨_, _, rfl⟩
  obtain ⟨hlen, hpos⟩ := fmtLen_loadOperands hc h1 hwf hf hframe
  have hseven := bytesWritten_le_seven hc hwf h4
  simp only [bytesWritten, hframe] at hseven
  omega

/-- The first two stages of a command that is not refused read no answer of the responder. -/
theorem prepare_withOracle {i : Instr} {s : State} (hc : s.cfg.wf = true) (h1 : 1 ≤ s.fmtLen.toNat)
    (h4 : s.fmtLen.toNat ≤ 4) (hwf : i.wf s.cfg = true) (answers : List Bool) (n : Nat) :
    prepare i (s.withOracle answers n) = (prepare i s).withOracle answers n := by
  have hload : loadOperands i (accept (s.withOracle answers n)) = (loadOperands i (accept s)).withOracle answers n :=
    loadOperands_withOracle i (accept s) answers n
  cases hf : formats i with
  | false => rw [prepare_of_not_formats hf, prepare_of_not_formats hf, hload]
  | true =>
    obtain ⟨base, value, hn⟩ := shownNumber_of_formats hf
    obtain ⟨hlen1, hlen4⟩ := fmtLen_loadOperands_bounds hc h1 h4 hwf hf
    simp only [prepare, fillShown, hn, hload]
    exact fillBuffer_withOracle _ _ _ _ hlen1 hlen4 _ answers n

theorem exec_of_not_wf {i : Instr} {s : State} (h : i.wf s.cfg = false) : exec i s = .next (refuse s) := by
  obtain ⟨t, ht, hx⟩ := exec_cases i s
  cases hx with
  | refused _ => exact ht
  | encoded d hi => subst hi; cases h
  | performed hwf => exact absurd (h.symm.trans hwf) Bool.false_ne_true

/-- What a frame appends, from the registers of a command that has loaded its operands. -/
theorem frameEffect_prepare_tr (len : Nat) (pos : Byte) (i : Instr) (s : State) :
    (frameEffect len pos (prepare i s)).tr =
      s.tr ++ transactionsEvents (frameBytes len pos (prepare i s)) (nextAnswers (prepare i s) (3 + len)) := by
  rw [← prepare_tr i s]; rfl

/-- Two runs of a command from `s`, ending in `t` and `t'`: they write the same registers but the acknowledgement ones, their
clocks move alike, and the same bits stand on the data line at the clock's rises. -/
def SameDecisions (s t t' : State) : Prop :=
  ∃ es es', t.tr = s.tr ++ es ∧ t'.tr = s.tr ++ es' ∧
    t'.regs = { t with tr := t'.tr, dioOe := t'.dioOe, lastAck := t'.lastAck, allAck := t'.allAck }.regs ∧
    es'.filter isClockOrDelay = es.filter isClockOrDelay ∧
    levelsAtClockRise (s.clkOe, s.dioOe) es' = levelsAtClockRise (s.clkOe, s.dioOe) es

/-- Runs that append the same events differ in no decision when they write the same registers. -/
theorem SameDecisions.of_same_events {s t t' : State} (es : List Event) (h : t.tr = s.tr ++ es) (h' : t'.tr = s.tr ++ es)
    (hregs : t'.regs = { t with tr := t'.tr, dioOe := t'.dioOe, lastAck := t'.lastAck, allAck := t'.allAck }.regs) :
    SameDecisions s t t' := ⟨es, es, h, h', hregs, rfl, rfl⟩

theorem SameDecisions.of_no_event {s t t' : State} (h : t.tr = s.tr) (h' : t'.tr = s.tr)
    (hregs : t'.regs = { t with tr := t'.tr, dioOe := t'.dioOe, lastAck := t'.lastAck, allAck := t'.allAck }.regs) :
    SameDecisions s t t' :=
  .of_same_events [] (by rw [h, List.append_nil]) (by rw [h', List.append_nil]) hregs

/-- A byte shows its bits and nothing of its sample (R95). -/
theorem byteEffect_sameDecisions (b : Byte) (s : State) (answers : List Bool) (n : Nat) :
    SameDecisions s (respond .ok 0 (byteEffect b (accept s)))
      (respond .ok 0 (byteEffect b (accept (s.withOracle answers n)))) := by
  have hlevels : ∀ a, levelsAtClockRise (s.clkOe, s.dioOe) (byteEvents b a) = byteLevels b := fun a => by
    simpa [levelsAtClockRise] using levelsAtClockRise_byte (s.clkOe, s.dioOe) b a []
  refine ⟨byteEvents b _, byteEvents b _, rfl, rfl, rfl, ?clock, ?levels⟩
  case clock => rw [filter_clock_byte, filter_clock_byte]
  case levels => rw [hlevels, hlevels]

/-- A frame shows its transactions and nothing of its samples (R114, R117). -/
theorem frameEffect_sameDecisions (len : Nat) (pos : Byte) {i : Instr} {s : State} {answers : List Bool} {n : Nat}
    (hprep : prepare i (s.withOracle answers n) = (prepare i s).withOracle answers n) :
    SameDecisions s (frameEffect len pos (prepare i s)) (frameEffect len pos (prepare i (s.withOracle answers n))) := by
  have hbytes : frameBytes len pos (prepare i (s.withOracle answers n)) = frameBytes len pos (prepare i s) := by
    rw [hprep]; rfl
  have hlen : ∀ u : State, (nextAnswers u (3 + len)).length = byteCount (frameBytes len pos (prepare i s)) := fun u => by
    rw [nextAnswers_length, byteCount_frameBytes]
  refine ⟨_, _, frameEffect_prepare_tr len pos i s, frameEffect_prepare_tr len pos i _, by rw [hprep]; rfl, ?clock,
    ?levels⟩
  case clock => rw [hbytes, filter_clock_transactions (hlen _), filter_clock_transactions (hlen _)]
  case levels => rw [hbytes, levelsAtClockRise_transactions _ (hlen _), levelsAtClockRise_transactions _ (hlen _)]

/-- A command with other answers of the responder to come: it is refused alike, or sends its frame, or is WRBYTE, or samples
nothing. -/
theorem exec_withOracle {i : Instr} {s : State} (hc : s.cfg.wf = true) (hack : s.cfg.ackWait = false)
    (h1 : 1 ≤ s.fmtLen.toNat) (h4 : s.fmtLen.toNat ≤ 4) (answers : List Bool) (n : Nat) :
    ∃ t t', exec i s = .next t ∧ exec i (s.withOracle answers n) = .next t' ∧ SameDecisions s t t' := by
  cases hwf : i.wf s.cfg with
  | false =>
    exact ⟨_, _, exec_of_not_wf hwf, exec_of_not_wf (s := s.withOracle answers n) hwf, .of_no_event rfl rfl rfl⟩
  | true =>
    cases hf : frameOf i s with
    | some frame =>
      have hf' : frameOf i (s.withOracle answers n) = some frame := by rw [← hf]; cases i <;> rfl
      exact ⟨_, _, exec_frameEffect hc hack hwf hf, exec_frameEffect (s := s.withOracle answers n) hc hack hwf hf',
        frameEffect_sameDecisions _ _ (prepare_withOracle hc h1 h4 hwf answers n)⟩
    | none =>
      cases i with
      | start => exact ⟨_, _, exec_start s, exec_start _, .of_same_events _ rfl rfl rfl⟩
      | stop => exact ⟨_, _, exec_stop s, exec_stop _, .of_same_events _ rfl rfl rfl⟩
      | wrbyte b =>
        exact ⟨_, _, exec_wrbyte hack b, exec_wrbyte (s := s.withOracle answers n) hack b,
          byteEffect_sameDecisions b s answers n⟩
      | encode d => exact ⟨_, _, rfl, rfl, .of_no_event rfl rfl rfl⟩
      | setbrt level on => exact ⟨_, _, rfl, rfl, .of_no_event rfl rfl rfl⟩
      | setfmt len lz dots =>
        exact ⟨_, _, exec_setfmt hwf lz dots, exec_setfmt (s := s.withOracle answers n) hwf lz dots,
          .of_no_event rfl rfl rfl⟩
      | _ => cases hf

/-- Settles O36: the second state is the first with another oracle, and what a byte or a frame shows on the clock, and on the
data line at the clock's rises, is a function of the bytes (`exec_withOracle`). -/
theorem acknowledgementsChangeNoDecision : Obligations.AcknowledgementsChangeNoDecision := by
  intro i s s' hc hack h1 h4 hs'
  obtain ⟨t, t', ht, ht', es, es', hsame⟩ := exec_withOracle (i := i) hc hack h1 h4 s'.answers s'.sampleNo
  exact ⟨t, t', es, es', ht, hs' ▸ ht', hsame⟩

end Sys2Proof.Machine

/-! ## Number formatting: the digits as thresholds of the value, and the six SHOW commands

SUPPORT for the statements of the family 42_number_format.md. A position is named by its place `j` counted from the right, and
what it shows is decided by comparing the value with powers of the base magnitude. -/

namespace Sys2Proof.Machine

/-! ### What a place shows (R130, R139) -/

/-- The byte that the formatter leaves at place `j` from the right: a digit where the value reaches the place, leading zeros
are on, or 0 stands alone; else the minus glyph at the first place that the value does not reach, or a blank. -/
def shownByte (c : Config) (bmag : Nat) (neg : Bool) (value : Nat) (lz : Bool) (j : Nat) : Byte :=
  if lz = true ∨ bmag ^ j ≤ value ∨ (value = 0 ∧ j = 0) then encodeDigit c (value / bmag ^ j % bmag)
  else if neg = true ∧ value ≠ 0 ∧ bmag ^ (j - 1) ≤ value then c.minusGlyph
  else 0x00

theorem shownByte_digit {c : Config} {bmag : Nat} {neg : Bool} {value : Nat} {lz : Bool} {j : Nat}
    (h : lz = true ∨ bmag ^ j ≤ value ∨ (value = 0 ∧ j = 0)) :
    shownByte c bmag neg value lz j = encodeDigit c (value / bmag ^ j % bmag) := if_pos h

/-- The minus glyph stands immediately left of the most significant digit. -/
theorem shownByte_minus {c : Config} {bmag value j : Nat} (hv : value ≠ 0) (hlo : bmag ^ (j - 1) ≤ value)
    (hhi : value < bmag ^ j) : shownByte c bmag true value false j = c.minusGlyph := by
  rw [shownByte, if_neg (by simp [hv, hhi]), if_pos ⟨rfl, hv, hlo⟩]

theorem shownByte_blank {c : Config} {bmag : Nat} {neg : Bool} {value j : Nat} (hv : value ≠ 0) (hhi : value < bmag ^ j)
    (h : neg = false ∨ value < bmag ^ (j - 1)) : shownByte c bmag neg value false j = 0x00 := by
  rw [shownByte, if_neg (by simp [hv, hhi]), if_neg]
  rintro ⟨hneg, -, hlo⟩
  rcases h with hpos | hlt
  · exact Bool.false_ne_true (hpos.symm.trans hneg)
  · exact absurd hlo (Nat.not_le.mpr hlt)

/-- A value of 0 with leading zeros off shows one digit, at place 0. -/
theorem shownByte_zero {c : Config} {bmag : Nat} {neg : Bool} {j : Nat} (hb : 1 ≤ bmag) (hj : j ≠ 0) :
    shownByte c bmag neg 0 false j = 0x00 := by
  have hpow : 0 < bmag ^ j := Nat.pow_pos hb
  rw [shownByte, if_neg (by simp [hj]; omega), if_neg (by simp)]

/-- Where a minus glyph that is neither a glyph nor blank is shown, the value reaches the place on its right and not this one. -/
theorem reaches_of_shownByte_eq_minus {c : Config} {bmag : Nat} {neg : Bool} {value : Nat} {lz : Bool} {j : Nat}
    (hblank : c.minusGlyph ≠ 0) (hglyph : ∀ n, encodeDigit c n ≠ c.minusGlyph)
    (h : shownByte c bmag neg value lz j = c.minusGlyph) : bmag ^ (j - 1) ≤ value ∧ value < bmag ^ j := by
  unfold shownByte at h
  split at h
  · exact absurd h (hglyph _)
  · next hlow =>
    split at h
    · next hminus => exact ⟨hminus.2.2, Nat.not_le.mp fun hle => hlow (.inr (.inl hle))⟩
    · exact absurd h.symm hblank

/-- A value lies between two neighbouring powers of the magnitude at one place only. -/
theorem place_unique {bmag value j k : Nat} (hb : 1 ≤ bmag) (hj : bmag ^ (j - 1) ≤ value ∧ value < bmag ^ j)
    (hk : bmag ^ (k - 1) ≤ value ∧ value < bmag ^ k) : j = k := by
  have hle : ∀ a b, value < bmag ^ a → bmag ^ (b - 1) ≤ value → b ≤ a := fun a b ha hb' => by
    by_contra hlt
    have hpow : bmag ^ a ≤ bmag ^ (b - 1) := Nat.pow_le_pow_right hb (by omega)
    omega
  exact Nat.le_antisymm (hle k j hk.2 hj.1) (hle j k hj.2 hk.1)

/-- The closed form of the formatter's byte, its quotients read as comparisons. -/
theorem formattedByte_eq_shownByte (c : Config) {bmag : Nat} (hb : 1 ≤ bmag) (neg : Bool) (value : Nat) (lz : Bool)
    (len i : Nat) : formattedByte c bmag neg value lz len i = shownByte c bmag neg value lz (len - 1 - i) := by
  have hquot : ∀ e, value / bmag ^ e = 0 ↔ value < bmag ^ e := fun e => Nat.div_eq_zero_iff_lt (Nat.pow_pos hb)
  simp only [formattedByte]
  generalize len - 1 - i = j
  by_cases hlow : lz = false ∧ value / bmag ^ j = 0
  · rw [if_pos hlow]
    obtain ⟨rfl, hzero⟩ := hlow
    by_cases hv : value = 0
    · subst hv
      rw [if_pos rfl]
      by_cases hj : j = 0
      · rw [if_pos hj, shownByte_digit (.inr (.inr ⟨rfl, hj⟩)), Nat.zero_div, Nat.zero_mod]
      · rw [if_neg hj, shownByte_zero hb hj]
    · rw [if_neg hv]
      have hhi : value < bmag ^ j := (hquot j).mp hzero
      by_cases hminus : neg = true ∧ value / bmag ^ (j - 1) ≠ 0
      · rw [if_pos hminus, hminus.1, shownByte_minus hv (Nat.not_lt.mp (mt (hquot _).mpr hminus.2)) hhi]
      · rw [if_neg hminus, shownByte_blank hv hhi]
        rwa [not_and_or, Bool.not_eq_true, not_not, hquot] at hminus
  · rw [if_neg hlow, shownByte_digit]
    rw [hquot, not_and_or, Bool.not_eq_false, Nat.not_lt] at hlow
    exact hlow.imp_right .inl

/-! ### The formatter read position by position -/

section
variable {bmag len : Nat} (neg : Bool) (value : Nat) (lz : Bool) (s : State)

theorem readDig_formatNumber {k : Nat} (hb : 1 ≤ bmag) (h4 : len ≤ 4) (hk : k < len) :
    readDig (formatNumber bmag neg value lz len s) k = shownByte s.cfg bmag neg value lz (len - 1 - k) := by
  rw [readDig_eq _ (hk.trans_le h4), formatNumber_eq _ _ _ _ _ (by omega), replaceDigits_getElem, if_pos hk,
    formattedByte_eq_shownByte _ hb]

theorem readDig_formatNumber_of_le {k : Nat} (h1 : 1 ≤ len) (hk : len ≤ k) :
    readDig (formatNumber bmag neg value lz len s) k = readDig s k := by
  rw [formatNumber_eq _ _ _ _ _ h1, readDig, readDig, digit_getD, digit_getD]
  split
  · rw [replaceDigits_getElem, if_neg (Nat.not_lt.mpr hk)]
  · rfl

/-- `NEG` stays 1 exactly when no place was left for the minus glyph, or none was wanted (R19, R140). -/
theorem formatNumber_neg_iff (hb : 1 ≤ bmag) (h1 : 1 ≤ len) : (formatNumber bmag neg value lz len s).neg = true ↔
    neg = true ∧ (lz = true ∨ value = 0 ∨ bmag ^ (len - 1) ≤ value) := by
  have hquot : value / bmag ^ (len - 1) = 0 ↔ value < bmag ^ (len - 1) := Nat.div_eq_zero_iff_lt (Nat.pow_pos hb)
  rw [formatNumber_eq _ _ _ _ _ h1]
  simp only [negAfter, Bool.and_eq_true, Bool.or_eq_true, decide_eq_true_eq, ne_eq, hquot, Nat.not_lt, or_assoc]

end

/-- Settles O37: `shownByte` at every place, `NEG`, `REM` and the frame from `formatNumber_eq`. -/
theorem formatterClosedForm : Obligations.FormatterClosedForm := by
  intro bmag neg value lz len s hb h1 h4
  refine ⟨fun j hj => ?digit, fun k => readDig_formatNumber_of_le neg value lz s h1,
    formatNumber_neg_iff neg value lz s hb h1, fun hv => ?rem, ?frame⟩
  case digit =>
    rw [readDig_formatNumber neg value lz s hb h4 (by omega), Nat.sub_sub_self (by omega)]
    rfl
  case rem =>
    rw [formatNumber_eq _ _ _ _ _ h1]
    exact if_neg fun h => hv.elim (· h.1) (fun hlz => Bool.false_ne_true (h.2.symm.trans hlz))
  case frame => rw [formatNumber_eq _ _ _ _ _ h1]

/-! ### The properties of R140 and the unusual bases of R141 -/

/-- A digit below place `len` is a digit of the value's `len` lowest (R140(f)). -/
theorem digit_mod_pow {bmag value len j : Nat} (hj : j < len) :
    value % bmag ^ len / bmag ^ j % bmag = value / bmag ^ j % bmag := by
  obtain ⟨m, rfl⟩ := Nat.exists_eq_add_of_lt hj
  rw [Nat.add_assoc, Nat.pow_add, Nat.mod_mul_right_div_self, Nat.mod_mod_of_dvd _ (dvd_pow_self bmag (Nat.succ_ne_zero m))]

/-- R140(a) and (b) for a value of `d` digits: where it fits, the digits stand at the right, the minus glyph left of them and
blanks left of that; where the minus glyph has no room, every position is a digit and `NEG` stays 1. -/
theorem formatNumber_of_digits {bmag : Nat} (neg : Bool) {value len : Nat} (s : State) (hb : 1 ≤ bmag) (h1 : 1 ≤ len)
    (h4 : len ≤ 4) {d : Nat} (hd : 1 ≤ d) (hlo : bmag ^ (d - 1) ≤ value) (hhi : value < bmag ^ d) :
    (d ≤ len →
      (∀ k, k < d → readDig (formatNumber bmag neg value false len s) (len - d + k) =
        encodeDigit s.cfg (value / bmag ^ (d - 1 - k) % bmag)) ∧
      (neg = true → d < len → readDig (formatNumber bmag neg value false len s) (len - d - 1) = s.cfg.minusGlyph) ∧
      (∀ k, k < len - d → (neg = false ∨ k < len - d - 1) →
        readDig (formatNumber bmag neg value false len s) k = 0x00)) ∧
    (len ≤ d → neg = true → (formatNumber bmag neg value false len s).neg = true ∧
      ∀ k, k < len → readDig (formatNumber bmag neg value false len s) k =
        encodeDigit s.cfg (value / bmag ^ (len - 1 - k) % bmag)) := by
  have hv : value ≠ 0 := (Nat.pow_pos hb |>.trans_le hlo).ne'
  have hreach : ∀ j, j ≤ d - 1 → bmag ^ j ≤ value := fun j hj => (Nat.pow_le_pow_right hb hj).trans hlo
  have hbeyond : ∀ j, d ≤ j → value < bmag ^ j := fun j hj => hhi.trans_le (Nat.pow_le_pow_right hb hj)
  have hread : ∀ k, k < len → readDig (formatNumber bmag neg value false len s) k =
      shownByte s.cfg bmag neg value false (len - 1 - k) := fun k => readDig_formatNumber neg value false s hb h4
  refine ⟨fun hfit => ⟨fun k hk => ?digit, fun hneg hroom => ?minus, fun k hk hside => ?blank⟩,
    fun hfull hneg => ⟨?sign, fun k hk => ?full⟩⟩
  case digit =>
    rw [hread _ (by omega), show len - 1 - (len - d + k) = d - 1 - k by omega,
      shownByte_digit (.inr (.inl (hreach _ (by omega))))]
  case minus =>
    rw [hread _ (by omega), show len - 1 - (len - d - 1) = d by omega, hneg, shownByte_minus hv hlo hhi]
  case blank =>
    rw [hread _ (by omega)]
    exact shownByte_blank hv (hbeyond _ (by omega)) (hside.imp_right fun hk' => hbeyond _ (by omega))
  case sign => exact (formatNumber_neg_iff neg value false s hb h1).mpr ⟨hneg, .inr (.inr (hreach _ (by omega)))⟩
  case full => rw [hread k hk, shownByte_digit (.inr (.inl (hreach _ (by omega))))]

/-- Settles O38: each property is what `shownByte` says at its places. -/
theorem formatterProperties : Obligations.FormatterProperties := by
  intro bmag neg value len s hb h1 h4
  have hread : ∀ lz k, k < len → readDig (formatNumber bmag neg value lz len s) k =
      shownByte s.cfg bmag neg value lz (len - 1 - k) := fun lz k => readDig_formatNumber neg value lz s hb h4
  refine ⟨fun d _ hd hlo hhi => formatNumber_of_digits neg s hb h1 h4 hd hlo hhi, fun k hk => ?zeros,
    fun hv => ⟨fun k hk => ?zeroBlank, ?zeroDigit⟩, fun hv k hk => ?zeroZeros,
    fun lz j k hblank hglyph hj hk hmj hmk => ?oneMinus, fun lz k hover hk => ?overflow⟩
  case zeros => rw [hread _ k hk, shownByte_digit (.inl rfl)]
  case zeroBlank => rw [hread _ k (by omega), hv, shownByte_zero hb (by omega)]
  case zeroDigit =>
    rw [hread _ _ (by omega), shownByte_digit (.inr (.inr ⟨hv, by omega⟩)), hv, Nat.zero_div, Nat.zero_mod]
  case zeroZeros => rw [hread _ k hk, shownByte_digit (.inl rfl), hv, Nat.zero_div, Nat.zero_mod]
  case oneMinus =>
    rw [hread _ _ hj] at hmj
    rw [hread _ _ hk] at hmk
    have hplace := place_unique hb (reaches_of_shownByte_eq_minus hblank hglyph hmj)
      (reaches_of_shownByte_eq_minus hblank hglyph hmk)
    omega
  case overflow =>
    have hreach : bmag ^ (len - 1 - k) ≤ value := (Nat.pow_le_pow_right hb (by omega)).trans hover
    rw [hread _ k hk, shownByte_digit (.inr (.inl hreach)), digit_mod_pow (by omega)]

/-- A refused command leaves every register but `ALL_ACK` and `BUSY` as it was (R86). -/
theorem completesAs_refused {i : Instr} {s : State} (h : i.wf s.cfg = false) :
    CompletesAs i s { s with allAck := true, busy := false } ⟨.refused, true, 0⟩ :=
  ⟨_, exec_of_not_wf h, rfl, rfl, rfl⟩

/-- Settles O39: in magnitude 1 the value reaches every place and leaves remainder 0; a digit is looked up by its low four bits;
base 0 is outside the domain. -/
theorem unusualBases : Obligations.UnusualBases := by
  refine ⟨fun neg value lz len s _ h4 hv k hk => ?one, fun bmag neg value lz len s _ h4 hb k hk hdigit => ?large,
    fun value dots lz len pos s => completesAs_refused rfl⟩
  case one =>
    have hreach : 1 ^ (len - 1 - k) ≤ value := by rw [Nat.one_pow]; omega
    rw [readDig_formatNumber neg value lz s (Nat.le_refl 1) h4 hk, shownByte_digit (.inr (.inl hreach)), Nat.mod_one,
      encodeDigit_eq]
  case large =>
    have hreach : bmag ^ (len - 1 - k) ≤ value := Nat.not_lt.mp fun hlt => hdigit (Nat.div_eq_of_lt hlt)
    rw [readDig_formatNumber neg value lz s (by omega) h4 hk, shownByte_digit (.inr (.inl hreach)), encodeDigit_eq]

/-! ### The SHOW commands (R133 to R138) -/

/-- A command whose meaning is the explicit form, its operands admitted (R133). -/
theorem completesAs_showExplicit {i : Instr} {base : Int} {value : Nat} {dots : Byte} {lz : Bool} {len pos : Byte} {s : State}
    (hi : exec i s = .next (showExplicit base value dots lz len pos s)) (hc : s.cfg.wf = true)
    (hack : s.cfg.ackWait = false) (h1 : 1 ≤ len.toNat) (h4 : len.toNat ≤ 4) (hb : base ≠ 0) :
    CompletesAs i s
      (showEffect base value dots lz len.toNat pos
        { s with allAck := true, fmtLen := BitVec.ofNat 3 len.toNat, fmtLz := lz, fmtDots := dots })
      ⟨.ok, allAcked s (3 + len.toNat), 0⟩ := by
  rw [showExplicit_admitted _ _ _ _ _ _ hack (maxDigits_of_wf hc) ((lenAdmitted_iff hc).mpr ⟨h1, h4⟩)
    (decide_eq_true hb)] at hi
  rw [BitVec.ofNat_toNat]
  exact ⟨_, hi, rfl, rfl, rfl⟩

/-- A command whose meaning is the stored form, its base admitted (R136). -/
theorem completesAs_showStored {i : Instr} {base : Int} {value : Nat} {pos : Byte} {s : State}
    (hi : exec i s = .next (showStored base value pos s)) (hack : s.cfg.ackWait = false) (h1 : 1 ≤ s.fmtLen.toNat)
    (h4 : s.fmtLen.toNat ≤ 4) (hb : base ≠ 0) :
    CompletesAs i s (showEffect base value s.fmtDots s.fmtLz s.fmtLen.toNat pos { s with allAck := true })
      ⟨.ok, allAcked s (3 + s.fmtLen.toNat), 0⟩ := by
  rw [showStored_admitted _ _ _ hack h1 h4 (decide_eq_true hb)] at hi
  exact ⟨_, hi, rfl, rfl, rfl⟩

theorem decimalBase_eq (num : Int) : decimalBase num = if num < 0 then -10 else 10 := by simp [decimalBase, isNeg]

theorem decimalBase_ne_zero (num : Int) : decimalBase num ≠ 0 := of_decide_eq_true (baseAdmitted_decimalBase num)

/-- The operands that SHOWDEC forwards, by the sign of its number (R134, R137). -/
theorem decimal_operands {α : Type} (f : Int → Nat → α) (num : Int) :
    f (decimalBase num) (decimalValue num) = if num < 0 then f (-10) (-num).toNat else f 10 num.toNat := by
  rw [decimalBase_eq, decimalValue, absNat]
  split
  · rw [show num.natAbs = (-num).toNat by omega]
  · rw [show num.natAbs = num.toNat by omega]

/-- Settles O40: admitted, the explicit form (`completesAs_showExplicit`); outside the domain, refused. -/
theorem showbaseEffect : Obligations.ShowbaseEffect := by
  intro base value dots lz len pos s hc
  refine ⟨fun h1 h4 hb hack => completesAs_showExplicit rfl hc hack h1 h4 hb, fun h => completesAs_refused ?domain, ?word⟩
  case domain =>
    rw [Instr.wf, Bool.and_eq_false_iff]
    rcases or_assoc.mpr h with hlen | rfl
    · exact .inr ((lenAdmitted_eq_false_iff hc).mpr hlen)
    · exact .inl rfl
  case word => rw [encode, placeBit_eq, place_zero]; rfl

/-- Settles O41: the explicit form with the operands of `decimal_operands`. -/
theorem showdecEffect : Obligations.ShowdecEffect := by
  intro num dots lz len pos s hc
  refine ⟨decimal_operands (fun base value => exec (.showbase base value dots lz len pos) s) num,
    fun h1 h4 hack => ?admitted, fun hfit => of_decide_eq_true (decimalValue_fits (valueW_of_wf hc) hfit), ?word,
    fun h => completesAs_refused ((lenAdmitted_eq_false_iff hc).mpr h)⟩
  case admitted =>
    rw [← decimalBase_eq]
    exact completesAs_showExplicit rfl hc hack h1 h4 (decimalBase_ne_zero num)
  case word => rw [encode, placeBit_eq, place_zero]; rfl

/-- Settles O42: the explicit form in base 16. -/
theorem showhexEffect : Obligations.ShowhexEffect := by
  intro value dots lz len pos s hc
  refine ⟨rfl, fun h1 h4 hack => completesAs_showExplicit rfl hc hack h1 h4 (by decide), ?word,
    fun h => completesAs_refused ((lenAdmitted_eq_false_iff hc).mpr h)⟩
  case word => rw [encode, placeBit_eq, place_zero]; rfl

/-- Settles O43: admitted, the stored form (`completesAs_showStored`), whose effect writes no format field; base 0 is outside
the domain. -/
theorem showbaseStoredEffect : Obligations.ShowbaseStoredEffect := by
  intro base value pos s
  refine ⟨fun hb hack h1 h4 => completesAs_showStored rfl hack h1 h4 hb, fun h => completesAs_refused ?domain, ?word⟩
  case domain => subst h; rfl
  case word => rw [encode, place_zero]; rfl

/-- Settles O44: the stored form with the operands of `decimal_operands`. -/
theorem showdecStoredEffect : Obligations.ShowdecStoredEffect := by
  intro num pos s
  refine ⟨decimal_operands (fun base value => exec (.showbaseD base value pos) s) num, fun hack h1 h4 => ?admitted, ?word⟩
  case admitted =>
    rw [← decimalBase_eq]
    exact completesAs_showStored rfl hack h1 h4 (decimalBase_ne_zero num)
  case word => rw [encode, place_zero]; rfl

/-- Settles O45: the stored form in base 16. -/
theorem showhexStoredEffect : Obligations.ShowhexStoredEffect := by
  intro value pos s
  refine ⟨rfl, fun hack h1 h4 => completesAs_showStored rfl hack h1 h4 (by decide), ?word⟩
  case word => rw [encode, place_zero]; rfl

end Sys2Proof.Machine

/-! ## Exceptions: every step answers, and every command is answered within a bounded number of events

SUPPORT for the statements of the family 60_exceptions.md. -/

namespace Sys2Proof.Machine

/-! ### Every step answers (R150) -/

/-- Every command answers a next state: it is performed or refused. -/
theorem exec_answers (i : Instr) (s : State) : ∃ t, exec i s = .next t := by
  obtain ⟨t, ht, -⟩ := exec_cases i s
  exact ⟨t, ht⟩

/-- Every word answers a next state: a command by `exec`, any other word as illegal (R84). -/
theorem runWord_answers (w : CmdWord) (s : State) : ∃ t, runWord w s = .next t := by
  by_cases h : ∃ i, decode w = .ok i
  · obtain ⟨i, hd⟩ := h
    rw [runWord_of_decode hd]
    exact exec_answers i s
  · exact ⟨_, runWord_of_not_decode h s⟩

theorem runPresented_answers {p : Presented} {s : State} (h : presentable s.cfg p = true) :
    ∃ t, runPresented p s = .next t := by
  cases p with
  | word w => rw [runPresented_word h]; exact runWord_answers w s
  | decoded i => rw [runPresented_decoded h]; exact exec_answers i s

theorem step_answers {s : State} (h : ∀ p ∈ s.cmdQueue.head?, presentable s.cfg p = true) : ∃ t, step s = .next t := by
  cases hr : s.resetIn with
  | true => exact ⟨_, step_reset hr⟩
  | false =>
    cases hb : s.busy with
    | true => exact ⟨_, step_busy hr hb⟩
    | false =>
      cases hq : s.cmdQueue with
      | nil => exact ⟨_, step_idle hr hb hq⟩
      | cons p ps =>
        rw [step_presented hr hb hq]
        exact runPresented_answers (h p (by simp [hq]))

/-! ### How many events a command has (R99, R163) -/

theorem byteEvents_length_le (b : Byte) (a : Bool) : (byteEvents b a).length ≤ 58 := by
  have hlength : (byteEvents b a).length = _ := congrArg (·.2.2.2) (eventCounts_byte b a)
  rw [hlength]
  cases a <;> decide

theorem bytesEvents_length_le (bs : List Byte) (as : List Bool) : (bytesEvents bs as).length ≤ 58 * bs.length := by
  induction bs generalizing as with
  | nil => simp [bytesEvents]
  | cons b bs ih =>
    cases as with
    | nil => simp [bytesEvents]
    | cons a as =>
      have hbyte := byteEvents_length_le b a
      have hrest := ih as
      rw [bytesEvents, List.length_append, List.length_cons]
      omega

/-- A transaction has its start and stop, and at most 58 events for each byte. -/
theorem transactionEvents_length_le (bs : List Byte) (as : List Bool) :
    (transactionEvents bs as).length ≤ 8 + 58 * bs.length := by
  have hbytes := bytesEvents_length_le bs as
  simp only [transactionEvents, startEvents, stopEvents, List.length_append, List.length_cons, List.length_nil]
  omega

theorem transactionsEvents_length_le (bss : List (List Byte)) (as : List Bool) :
    (transactionsEvents bss as).length ≤ 8 * bss.length + 58 * byteCount bss := by
  induction bss generalizing as with
  | nil => exact Nat.zero_le _
  | cons bs bss ih =>
    have hfirst := transactionEvents_length_le bs (as.take bs.length)
    have hrest := ih (as.drop bs.length)
    rw [transactionsEvents, List.length_append, byteCount_cons, List.length_cons]
    omega

/-- A performed command has at most the events of three transactions that hold its bytes. -/
theorem perform_microOps_tr_length_le {i : Instr} {s : State} (hc : s.cfg.wf = true) (hack : s.cfg.ackWait = false)
    (hwf : i.wf s.cfg = true) :
    (perform (microOps i (prepare i s)) (prepare i s)).tr.length ≤ s.tr.length + (24 + 58 * bytesWritten i s) := by
  have hack' : (prepare i s).cfg.ackWait = false := by rwa [prepare_cfg]
  cases hf : frameOf i s with
  | some frame =>
    obtain ⟨len, pos⟩ := frame
    have hevents := transactionsEvents_length_le (frameBytes len pos (prepare i s)) (nextAnswers (prepare i s) (3 + len))
    have htransactions : (frameBytes len pos (prepare i s)).length = 3 := rfl
    have hbytes : bytesWritten i s = 3 + len := by simp [bytesWritten, hf]
    rw [byteCount_frameBytes, htransactions] at hevents
    rw [microOps_frame hc hwf hf, ← sendFrame, sendFrame_eq hack', frameEffect_prepare_tr, List.length_append, hbytes]
    omega
  | none =>
    rw [perform_tr hack']
    cases i with
    | start => simp [microOps, performAll_start, startEvents]; omega
    | stop => simp [microOps, performAll_stop, stopEvents]; omega
    | wrbyte data =>
      have hbyte := byteEvents_length_le data (answerAt (prepare (.wrbyte data) s) 0)
      have hbytes : bytesWritten (.wrbyte data) s = 1 := rfl
      rw [microOps, performAll_writeByte, byteEffect, List.length_append, prepare_tr, hbytes]
      omega
    | encode data => exact Nat.le_add_right _ _
    | setbrt level on => exact Nat.le_add_right _ _
    | setfmt len lz dots => exact Nat.le_add_right _ _
    | _ => cases hf

/-- Settles O12: a step resets, resumes, idles or performs what is presented (`step_answers`). A refused command and ENCODE have
no event; a performed command has at most 24 and 58 for each of at most seven bytes. -/
theorem nothingFaultsAndEveryCommandIsAnswered : Obligations.NothingFaultsAndEveryCommandIsAnswered := by
  refine ⟨fun _ => step_answers, fun i s hc hack h4 => ?_⟩
  obtain ⟨t, ht, hcases⟩ := exec_cases i s
  cases hcases with
  | refused _ => exact ⟨_, _, ht, rfl, rfl, rfl, Nat.le_add_right _ _⟩
  | encoded d _ => exact ⟨_, _, ht, rfl, rfl, rfl, Nat.le_add_right _ _⟩
  | performed hwf =>
    have hack' : (prepare i s).cfg.ackWait = false := by rwa [prepare_cfg]
    have hevents := perform_microOps_tr_length_le hc hack hwf
    have hbytes := bytesWritten_le_seven hc hwf h4
    refine ⟨_, _, ht, perform_rsp hack' _, ?ready, ?done, by omega⟩
    case ready => rw [perform_eq hack']; rfl
    case done => rw [perform_eq hack']; rfl

end Sys2Proof.Machine

/-! ## Reset and hazards: the idle step, reset inside a command, WRBYTE without a transaction, and the `delay()` calls

SUPPORT for the statements of the family 70_reset_and_hazards.md. -/

namespace Sys2Proof.Machine

/-! ### The idle step and reset inside a command -/

/-- Settles O10: the step of a ready block with no word presented is `idle`, which clears the response and nothing else. -/
theorem readyBlockWithoutCommandIdles : Obligations.ReadyBlockWithoutCommandIdles :=
  fun _ hr hb hq => ⟨_, step_idle hr hb hq, rfl, rfl, rfl, rfl⟩

@[simp] theorem launch_stored (ops : List MicroOp) (s : State) : (launch ops s).stored = s.stored := rfl

/-- One micro-step writes nothing that is stored, whether it performs an entry, waits, responds or finds the block not busy. -/
@[simp] theorem micro_stored (s : State) : (micro s).stored = s.stored := by
  unfold micro
  split
  · split
    · exact respond_stored .ok 0 s
    · next op ops _ =>
      dsimp only
      split
      · exact doOp_stored op s
      · exact (launch_stored ops _).trans (doOp_stored op s)
  · rfl

@[simp] theorem microRun_stored (n : Nat) (s : State) : (microRun n s).stored = s.stored := by
  induction n generalizing s with
  | zero => rfl
  | succ n ih => rw [microRun, ih, micro_stored]

/-- Settles O54: reset reads the parameters and the number of resets only, and no micro-step writes these or the host's
words. -/
theorem resetDuringACommand : Obligations.ResetDuringACommand := by
  intro ops s n
  have hstored : (microRun n (launch ops s)).stored = s.stored := by rw [microRun_stored, launch_stored]
  have hresets : (microRun n (launch ops s)).resetNo = s.resetNo := (congrArg State.resetNo hstored :)
  have hwords : (microRun n (launch ops s)).cmdQueue = s.cmdQueue := (congrArg State.cmdQueue hstored :)
  have hcfg : (microRun n (launch ops s)).cfg = s.cfg := (congrArg State.cfg hstored :)
  refine ⟨_, step_reset rfl, ?regs, rfl, rfl, rfl, hwords, hcfg, rfl⟩
  rw [← hresets, ← hcfg]
  rfl

/-! ### A byte without a transaction (R177) -/

/-- The receiver with no transaction open and the responder not pulling, having recognised `log`. -/
def Receiver.outsideTransaction (clkOe dioOe stray : Bool) (log : List WireItem) : Receiver :=
  { Receiver.idle clkOe dioOe with stray := stray, log := log }

/-- With no transaction open a bit slot gives the receiver nothing, and its clock rise is stray (U8). -/
theorem receive_bitSlot_outside (clk dio stray v : Bool) (log : List WireItem) :
    receiveAll (.outsideTransaction clk dio stray log) (bitSlotEvents v) = .outsideTransaction false (!v) true log := by
  cases v <;>
    simp [bitSlotEvents, receiveAll_cons, receiveAll_nil, receiveEvent, receiveClockFall, receiveClockRise, receiveDataLow,
      receiveDataHigh, Receiver.outsideTransaction, Receiver.idle, clkLine]

/-- With no transaction open the acknowledgement slot gives the receiver nothing. The data pin falls only where the responder
already holds the line low, so that is no start condition (R94). -/
theorem receive_ackSlot_outside (dio stray a : Bool) (log : List WireItem) :
    receiveAll (.outsideTransaction false dio stray log) (ackSlotEvents a) = .outsideTransaction true (!a) true log := by
  cases a <;> rfl

/-- With no transaction open a byte gives the receiver nothing, whatever is sampled (R177). -/
theorem receive_byte_outside (clk dio stray : Bool) (b : Byte) (a : Bool) (log : List WireItem) :
    receiveAll (.outsideTransaction clk dio stray log) (byteEvents b a) = .outsideTransaction true (!a) true log := by
  simp only [byteEvents, dataSlotEvents_eq, receiveAll_append, receive_bitSlot_outside, receive_ackSlot_outside]

/-- Settles O20: the byte is received from an idle bus with no transaction open (`receive_byte_outside`), and leaves the clock
pin driven. -/
theorem wrbyteOnAnIdleBusIsNotReceived : Obligations.WrbyteOnAnIdleBusIsNotReceived := by
  intro b s hack _ _
  have hreceived : receiveAll (.idle false false) (byteEvents b (answerAt (accept s) 0)) = _ :=
    receive_byte_outside false false false b _ []
  refine ⟨_, _, exec_wrbyte hack b, rfl, congrArg Receiver.log hreceived, rfl, fun d => ?_⟩
  have hunknown := displayAfter_stray (false, false) _ [] d (congrArg Receiver.stray hreceived)
  rwa [List.append_nil] at hunknown

/-! ### The `delay()` calls (R185) -/

theorem count_t_transaction {bs : List Byte} {as : List Bool} (h : as.length = bs.length) :
    (transactionEvents bs as).count .t = 4 + 28 * bs.length := by
  rw [← List.count_filter (p := isClockOrDelay) rfl, filter_clock_transaction h, count_t_transactionClock]

theorem count_t_byte (b : Byte) (a : Bool) : (byteEvents b a).count .t = 28 := by
  rw [← List.count_filter (p := isClockOrDelay) rfl, filter_clock_byte]
  rfl

/-- A transaction appends its events, also when it holds no byte (R61). -/
theorem performAll_transaction_tr (bs : List Byte) (s : State) :
    (performAll (transactionOps bs) s).tr = s.tr ++ transactionEvents bs (nextAnswers s bs.length) := by
  cases bs with
  | nil =>
    have hempty : transactionOps [] = startOps ++ stopOps := rfl
    rw [hempty, performAll_append, performAll_start, performAll_stop]
    exact List.append_assoc ..
  | cons b bs => rw [performAll_transaction]; rfl

/-- The table of R185: a command that is not refused appends as many `T` events as the table says. -/
theorem exec_delayCalls {i : Instr} {s : State} (hc : s.cfg.wf = true) (hack : s.cfg.ackWait = false)
    (hwf : i.wf s.cfg = true) :
    ∃ t es, exec i s = .next t ∧ t.tr = s.tr ++ es ∧ es.count .t = delayCalls i s := by
  cases hf : frameOf i s with
  | some frame =>
    obtain ⟨len, pos⟩ := frame
    have hcalls : delayCalls i s = 96 + 28 * len := by simp only [delayCalls, hf]
    have hcount : byteCount (frameBytes len pos (prepare i s)) = 3 + len := byteCount_frameBytes ..
    refine ⟨_, _, exec_frameEffect hc hack hwf hf, frameEffect_prepare_tr len pos i s, ?_⟩
    rw [count_t_transactions (by rw [nextAnswers_length, hcount]), hcount, hcalls]
    simp only [frameBytes, List.length_cons, List.length_nil]
    omega
  | none =>
    cases i with
    | start => exact ⟨_, _, exec_start s, rfl, rfl⟩
    | stop => exact ⟨_, _, exec_stop s, rfl, rfl⟩
    | wrbyte b => exact ⟨_, _, exec_wrbyte hack b, rfl, count_t_byte b _⟩
    | encode d => exact ⟨_, [], rfl, (List.append_nil _).symm, rfl⟩
    | setbrt level on => exact ⟨_, [], rfl, (List.append_nil _).symm, rfl⟩
    | setfmt len lz dots => exact ⟨_, [], exec_setfmt hwf lz dots, (List.append_nil _).symm, rfl⟩
    | _ => cases hf

/-- Settles O32: a refused or illegal command records nothing, the others by `exec_delayCalls`; a transaction's delays are those
of its clock; and the clock in a slot is run through from pins that the slot overwrites. -/
theorem delayCallCounts : Obligations.DelayCallCounts := by
  refine ⟨fun i s hc hack _ _ => ?commands, fun bs s hack => ?transaction, fun _ => rfl, fun p v => ?bitSlot,
    fun p a => ?ackSlot⟩
  case commands =>
    cases hwf : i.wf s.cfg with
    | false => exact ⟨_, [], exec_of_not_wf hwf, (List.append_nil _).symm, rfl⟩
    | true => exact exec_delayCalls hc hack hwf
  case transaction =>
    exact ⟨_, (perform_tr hack _).trans (performAll_transaction_tr bs s), count_t_transaction (nextAnswers_length ..)⟩
  case bitSlot => cases v <;> rfl
  case ackSlot => cases a <;> rfl

end Sys2Proof.Machine

/-! ## The reference responder of 95_test_vectors.md section 4 on acknowledged frames

SUPPORT for the statement about the reference responder. It is followed over the pieces of a transaction, as the receiver of
R44 is; each acknowledgement slot is sampled while it pulls the data line low, so its answer there is 0. -/

namespace Sys2Proof.Machine

/-! ### The shift register -/

theorem getLsbD_setBit (r : Byte) (i : Nat) (v : Bool) {j : Nat} (hj : j < 8) :
    (setBit r i v).getLsbD j = if j = i then v else r.getLsbD j := by
  have hplaced (u : Bool) : (((BitVec.ofBool u).setWidth 8) <<< i).getLsbD j = (u && decide (j = i)) := by
    cases u with
    | false => simp
    | true => rw [Bool.eq_iff_iff]; simp; omega
  have hone : (1 : Byte) = (BitVec.ofBool true).setWidth 8 := rfl
  rw [setBit, BitVec.getLsbD_or, BitVec.getLsbD_and, BitVec.getLsbD_not, hone, hplaced, hplaced]
  by_cases h : j = i <;> simp [h, hj]

/-- The register `r` after the first n bits of `b`, the least significant first (R60). -/
def shiftedIn (b r : Byte) : Nat → Byte
  | 0 => r
  | n + 1 => setBit (shiftedIn b r n) n (b.getLsbD n)

theorem getLsbD_shiftedIn (b r : Byte) (n : Nat) {j : Nat} (hj : j < 8) :
    (shiftedIn b r n).getLsbD j = if j < n then b.getLsbD j else r.getLsbD j := by
  induction n with
  | zero => rfl
  | succ n ih =>
    rw [shiftedIn, getLsbD_setBit _ _ _ hj, ih]
    by_cases h : j = n <;> simp [h, Nat.le_iff_lt_or_eq]

/-- Eight bits make the byte, whatever stood in the register. -/
theorem shiftedIn_eight (b r : Byte) : shiftedIn b r 8 = b :=
  BitVec.eq_of_getLsbD_eq fun j hj => by rw [getLsbD_shiftedIn b r 8 hj, if_pos hj]

/-! ### The responder in a transaction -/

theorem respondAll_nil (r : RefResponder) : respondAll r [] = r := rfl

theorem respondAll_cons (r : RefResponder) (e : Event) (es : List Event) :
    respondAll r (e :: es) = respondAll (respondEvent r e) es := rfl

theorem respondAll_append (r : RefResponder) (xs ys : List Event) :
    respondAll r (xs ++ ys) = respondAll (respondAll r xs) ys := List.foldl_append

/-- The responder outside a transaction on an idle bus, every sample so far the one it answers; `nbits` and `shreg` are what
the last transaction left. -/
def RefResponder.between (nbits : Nat) (shreg : Byte) (log : List WireItem) : RefResponder :=
  ⟨false, false, false, nbits, shreg, false, log, true⟩

/-- The responder in a transaction and not pulling, having taken `nbits` bits of a byte. -/
def RefResponder.receiving (clkOe dioOe : Bool) (nbits : Nat) (shreg : Byte) (log : List WireItem) : RefResponder :=
  ⟨clkOe, dioOe, true, nbits, shreg, false, log, true⟩

theorem respond_start (nbits : Nat) (shreg : Byte) (log : List WireItem) :
    respondAll (.between nbits shreg log) startEvents = .receiving false true 0 shreg (log ++ [.start]) := rfl

/-- A bit slot puts its bit into the register: before the eighth bit the clock's fall begins no acknowledgement. -/
theorem respond_bitSlot (clk dio v : Bool) {nbits : Nat} (hn : nbits < 8) (shreg : Byte) (log : List WireItem) :
    respondAll (.receiving clk dio nbits shreg log) (bitSlotEvents v) =
      .receiving false (!v) (nbits + 1) (setBit shreg nbits v) log := by
  have hne : nbits ≠ 8 := hn.ne
  cases v <;>
    simp [bitSlotEvents, respondAll_cons, respondAll_nil, respondEvent, RefResponder.receiving, clkLine, dioLine, hn, hne]

theorem respond_dataSlots (clk dio : Bool) (b shreg : Byte) (log : List WireItem) :
    respondAll (.receiving clk dio 0 shreg log) (dataSlotEvents b) = .receiving false (!b.getLsbD 7) 8 b log := by
  calc respondAll (.receiving clk dio 0 shreg log) (dataSlotEvents b)
      = .receiving false (!b.getLsbD 7) 8 (shiftedIn b shreg 8) log := by
        simp [dataSlotEvents_eq, respondAll_append, respond_bitSlot, shiftedIn]
    _ = .receiving false (!b.getLsbD 7) 8 b log := by rw [shiftedIn_eight]

/-- After eight bits the responder pulls from the clock's fall to its next fall: the sample between reads 0, and the data pin
driven while it pulls is no start condition (R94). -/
theorem respond_ackSlot (dio : Bool) (shreg : Byte) (log : List WireItem) :
    respondAll (.receiving false dio 8 shreg log) (ackSlotEvents false) =
      .receiving true true 0 shreg (log ++ [.byte shreg true]) := by
  cases dio <;> rfl

theorem respond_byte (clk dio : Bool) (b shreg : Byte) (log : List WireItem) :
    respondAll (.receiving clk dio 0 shreg log) (byteEvents b false) =
      .receiving true true 0 b (log ++ [.byte b true]) := by
  rw [byteEvents, respondAll_append, respond_dataSlots, respond_ackSlot]

/-- A stop condition ends the transaction. After a byte its clock rise still takes a bit, which the next start discards. -/
theorem respond_stop (clk : Bool) (shreg : Byte) (log : List WireItem) :
    ∃ nbits shreg', respondAll (.receiving clk true 0 shreg log) stopEvents = .between nbits shreg' (log ++ [.stop]) := by
  cases clk <;> exact ⟨_, _, rfl⟩

/-! ### Acknowledged transactions -/

/-- The bytes of a transaction and its stop condition (R61), from pins that a start or a byte leaves. -/
theorem respond_bytesStop (clk : Bool) (bs : List Byte) (shreg : Byte) (log : List WireItem) :
    ∃ nbits shreg',
      respondAll (.receiving clk true 0 shreg log) (bytesEvents bs (List.replicate bs.length false) ++ stopEvents) =
        .between nbits shreg' (log ++ (bs.map (WireItem.byte · true) ++ [.stop])) := by
  induction bs generalizing clk shreg log with
  | nil => exact respond_stop clk shreg log
  | cons b bs ih =>
    obtain ⟨nbits, shreg', hrest⟩ := ih true b (log ++ [.byte b true])
    refine ⟨nbits, shreg', ?_⟩
    rw [List.length_cons, List.replicate_succ, bytesEvents, List.append_assoc, respondAll_append, respond_byte, hrest]
    simp

theorem respond_transaction (bs : List Byte) (nbits : Nat) (shreg : Byte) (log : List WireItem) :
    ∃ nbits' shreg',
      respondAll (.between nbits shreg log) (transactionEvents bs (List.replicate bs.length false)) =
        .between nbits' shreg' (log ++ transactionItems bs (List.replicate bs.length false)) := by
  obtain ⟨nbits', shreg', hbytes⟩ := respond_bytesStop false bs shreg (log ++ [.start])
  refine ⟨nbits', shreg', ?_⟩
  rw [transactionEvents, List.append_assoc, respondAll_append, respond_start, hbytes, transactionItems_acked]
  simp

/-- Acknowledged transactions are logged one after the other, and every sample is the one the responder answers. -/
theorem respond_transactions (bss : List (List Byte)) (nbits : Nat) (shreg : Byte) (log : List WireItem) :
    ∃ nbits' shreg',
      respondAll (.between nbits shreg log) (transactionsEvents bss (List.replicate (byteCount bss) false)) =
        .between nbits' shreg' (log ++ transactionsItems bss (List.replicate (byteCount bss) false)) := by
  induction bss generalizing nbits shreg log with
  | nil => exact ⟨nbits, shreg, by rw [transactionsItems, List.append_nil]; rfl⟩
  | cons bs bss ih =>
    obtain ⟨n₁, r₁, hfirst⟩ := respond_transaction bs nbits shreg log
    obtain ⟨n₂, r₂, hrest⟩ := ih n₁ r₁ (log ++ transactionItems bs (List.replicate bs.length false))
    refine ⟨n₂, r₂, ?_⟩
    rw [byteCount_cons, List.replicate_add, transactionsEvents, transactionsItems, List.take_left' List.length_replicate,
      List.drop_left' List.length_replicate, respondAll_append, hfirst, hrest, List.append_assoc]

/-- Settles O35: the events that `frameEffect` appends are three acknowledged transactions, and the responder logs them as they
were sent, its own answers the samples (`respond_transactions`). -/
theorem referenceResponderReadsTheFrame : Obligations.ReferenceResponderReadsTheFrame := by
  intro i s len pos hc hack hwf hf _ _ _ _ hz
  have hanswers : nextAnswers (prepare i s) (3 + len) = List.replicate (3 + len) false :=
    nextAnswers_of_everySampleZero fun k hk => (answerAt_prepare i s k).trans (hz k hk)
  obtain ⟨nbits, shreg, hresponder⟩ := respond_transactions (frameBytes len pos (prepare i s)) 0 0 []
  rw [byteCount_frameBytes, ← hanswers] at hresponder
  refine ⟨_, _, exec_frameEffect hc hack hwf hf, frameEffect_prepare_tr len pos i s,
    congrArg RefResponder.agrees hresponder, ?_⟩
  rw [← hanswers]
  exact congrArg RefResponder.log hresponder

end Sys2Proof.Machine
